-- ==== Sys2Proof/Word.lean ====
section
/-! DEFINITION. The widths of the bus: the word type of the data lines, the byte offset, the byte a stored word is cut
into, and the 41-bit transaction word (30_encoding.md R80). -/

namespace Sys2Proof

/-- `bus_wdata` and `bus_rdata`: 32 bits (R6 `DATA_W`, R37). -/
abbrev Word := BitVec 32

/-- `bus_addr`: the byte offset from `BASE`, 8 bits (R6 `ADDR_W`, R37). -/
abbrev Offset := BitVec 8

/-- One byte of a transaction word that is stored as bytes (R61). -/
abbrev Byte := BitVec 8

/-- A bus transaction written as one number, 41 bits (R80). -/
abbrev BusWord := BitVec 41

end Sys2Proof
end

