-- ==== Sys2Proof/Syntax.lean ====
section
/-! DEFINITION. What the host can say to PWMT: the nine registers, the eighteen transactions (30_encoding.md R84), the
text form of a transaction program (R89), and the host operations of R90 and R263. -/

namespace Sys2Proof

/-- The nine registers, in the order of their word index (20_memory.md R65). -/
inductive Reg where
  | pwmCsr | pwmDiv | pwmCtr | pwmCc | pwmTop | tmrCsr | tmrCnt | tmrMatch | tmrIntr
  deriving DecidableEq, Repr

/-- The eighteen transactions of R84. A read has no operand: the hardware ignores its `WDATA` (R80). -/
inductive Instr where
  | rdPwmCsr
  | wrPwmCsr (wdata : Word)
  | rdPwmDiv
  | wrPwmDiv (wdata : Word)
  | rdPwmCtr
  | wrPwmCtr (wdata : Word)
  | rdPwmCc
  | wrPwmCc (wdata : Word)
  | rdPwmTop
  | wrPwmTop (wdata : Word)
  | rdTmrCsr
  | wrTmrCsr (wdata : Word)
  | rdTmrCnt
  | wrTmrCnt (wdata : Word)
  | rdTmrMatch
  | wrTmrMatch (wdata : Word)
  | rdTmrIntr
  | wrTmrIntr (wdata : Word)
  deriving DecidableEq, Repr

/-- The named fields of `WDATA` (R82). `EN` stands at the same bit in both control registers. -/
inductive Field where
  | en | intPart | frac | level | wrap | ie | matchValue | ipClr | ovrClr
  deriving DecidableEq, Repr

/-- `<REG>` of R89: a register's name, or a literal offset `@0x..`. -/
inductive RegRef where
  | named (r : Reg)
  | literal (off : Nat)
  deriving DecidableEq, Repr

/-- `<value>` of R89: a number, or an OR of fields such as `EN=1|IE=1`. -/
inductive Value where
  | number (n : Nat)
  | fields (fs : List (Field × Nat))
  deriving DecidableEq, Repr

/-- One line of a transaction program (R89). -/
inductive Item where
  | wr (reg : RegRef) (value : Value)
  | rd (reg : RegRef)
  | idle (n : Nat)
  deriving DecidableEq, Repr

/-- The callback that `arm` registers (R205: "a host function that returns a Boolean"). Log 12. -/
inductive Callback where
  /-- the Sweep Controller's `tick` (R190), the callback of the source's program -/
  | tick
  /-- any other host function: the one with this number among `Config.Params.hostFn`, a closure over `servo` and `cfg`
  (R214) with `memory` as its own state from call to call -/
  | hostFn (id memory : Nat)
  deriving DecidableEq, Repr

/-- The operations of the host main context (R90, R263). -/
inductive HostOp where
  /-- boot item 0: standard I/O initialisation, a no-op of the spec (R4, R263) -/
  | stdioInit
  /-- `configure(pin, frequency_hz)` (R170) -/
  | configure (pin frequencyHz : Nat)
  /-- `set_pulse(pulse)` in microseconds, any integer (R174) -/
  | setPulse (pulse : Int)
  /-- `Wait(ms)` (R212) -/
  | wait (ms : Nat)
  /-- boot item 8: Servo State becomes `{PULSE_MIN, UP}` (R191, R263) -/
  | initServo
  /-- `arm(period_ms, callback)` (R205) -/
  | arm (periodMs : Nat) (callback : Callback)
  /-- the idle loop with its print cadence (R213); it never completes -/
  | idleLoop (cadenceMs : Nat)
  deriving DecidableEq, Repr

end Sys2Proof
end

