-- ==== Sys2Proof/Config.lean ====
section
/-! DEFINITION. What is fixed for a run: the design constants of R7, the parameters R8 leaves open as opaque constants
(no value of theirs can be evaluated or proved), the timing draws of R8, the host's records (10_state.md R41, R42), the
host functions of R205, and the boot list of R263. -/

namespace Sys2Proof

/-! ### The host's records, and what a host function as callback sees and does -/

namespace Machine

/-- The response of the bus to a transaction, `bus_rdata` and `bus_err` (R37, R81). -/
structure Response where
  rdata : Word
  err : Bool
  deriving DecidableEq, Repr

/-- PWM Configuration, the record `cfg` (R41). -/
structure PwmConfig where
  pin : Nat
  div16 : Nat
  wrap : Nat
  periodCounts : Nat
  deriving DecidableEq, Repr

/-- `direction` of Servo State (R42). -/
inductive Direction where
  | up
  | down
  deriving DecidableEq, Repr

/-- Servo State, the record `servo` (R42); `targetPulse` is a mathematical integer, microseconds (D32). -/
structure Servo where
  targetPulse : Int
  direction : Direction
  deriving DecidableEq, Repr

/-- A value that Servo State can be given: `target_pulse` in [500, 2400] as 500 and an offset, and a direction (R42). -/
structure ServoValue where
  offset : Fin 1901
  direction : Direction
  deriving DecidableEq, Repr

/-- What a host function as callback can look at when it goes on: its own memory, Servo State and the configuration it is a
closure over (R214), and the response of its last transaction in this call, none at the call's beginning. Servo State is a
record here: a read of it while it is unset is refused (R42, V12). -/
structure CallbackView where
  memory : Nat
  servo : Servo
  cfg : Option PwmConfig
  resp : Option Response
  deriving DecidableEq, Repr

/-- What a host function as callback does next: an access of the bus (R10), a `set_pulse` (R174), a `tick` (R190), or its
return with the continue flag (R205). -/
inductive CallbackAct where
  | access (word : BusWord)
  | setPulse (pulse : Int)
  | tick
  | finish (cont : Bool)
  deriving DecidableEq, Repr, Inhabited

/-- One move of a host function: its memory after it, the value it gives Servo State (which the callback owns, R42; none:
it leaves it), and then what it does. -/
structure CallbackMove where
  memory : Nat
  servo : Option ServoValue
  act : CallbackAct
  deriving DecidableEq, Repr, Inhabited

end Machine

namespace Config

/-- `PULSE_MIN`, microseconds (R7). -/
def pulseMin : Int := 500
/-- `PULSE_MID`, microseconds (R7). -/
def pulseMid : Int := 1470
/-- `PULSE_MAX`, microseconds (R7). -/
def pulseMax : Int := 2400
/-- `PULSE_STEP`, microseconds per sweep tick (R7). -/
def pulseStep : Int := 5
/-- `STEP_DELAY`, milliseconds (R7). -/
def stepDelay : Nat := 10
/-- `PWM_FREQ`, hertz (R7). -/
def pwmFreq : Nat := 50
/-- `PERIOD_US`, microseconds (R7). -/
def periodUs : Nat := 20000

/-- `F_SYS` less one: `F_SYS` is any positive integer (R8). -/
opaque fSysLessOne : Nat
/-- `PWM_DIV16` less 16: `PWM_DIV16` is any integer in 16..4095 (R8). -/
opaque pwmDiv16Less16 : Fin 4080
/-- `BASE`, the bus address of register offset 0 (R8). -/
opaque base : Nat
/-- `PWM_PINS`, the pins the board can route `pwm_out` to (R8). Pins are numbers: DESIGN CHOICE, log 14, safe. -/
opaque pwmPins : List Nat
/-- `PIN`, the compile-time output pin (R8). -/
opaque pin : Nat
/-- `HOLD_MS`, the boot demo's hold time in milliseconds (R8). -/
opaque holdMs : Nat
/-- `IDLE_MS`, the idle print cadence in milliseconds (R8). -/
opaque idleMs : Nat
/-- `L_TXN` of the n-th draw: idle cycles before a transaction of a host operation (R8, D30); log 7. -/
opaque lTxn : Nat → Nat
/-- `L_IRQ` of the n-th draw: cycles from the request to the handler's first transaction (R8, D30). -/
opaque lIrq : Nat → Nat
/-- `T_CB` of the n-th draw: cycles the handler lasts at least (R8, D30); log 6. -/
opaque tCb : Nat → Nat
/-- The host functions that `arm` can be given as a callback, by number (R205); any functions at all, log 12. -/
opaque hostFn : Nat → Machine.CallbackView → Machine.CallbackMove

/-- The boot sequence of R263, indexed by `hpc`. -/
def bootList (pin holdMs idleMs : Nat) : List HostOp :=
  [ .stdioInit,
    .configure pin pwmFreq,
    .setPulse pulseMax,
    .wait holdMs,
    .setPulse pulseMid,
    .wait holdMs,
    .setPulse pulseMin,
    .wait holdMs,
    .initServo,
    .arm stepDelay .tick,
    .idleLoop idleMs ]

/-- The parameters of R8 as the host operations take them, with the list of operations that `hpc` indexes. Every host
operation takes them as an argument, so that a statement can speak of every value of them. -/
structure Params where
  fSys : Nat
  pwmDiv16 : Nat
  pwmPins : List Nat
  lTxn : Nat → Nat
  lIrq : Nat → Nat
  tCb : Nat → Nat
  hostFn : Nat → Machine.CallbackView → Machine.CallbackMove
  program : List HostOp

/-- The parameters of this machine: the opaque constants above and the source's boot list. -/
def params : Params :=
  { fSys := fSysLessOne + 1
    pwmDiv16 := 16 + pwmDiv16Less16.val
    pwmPins := pwmPins
    lTxn := lTxn
    lIrq := lIrq
    tCb := tCb
    hostFn := hostFn
    program := bootList pin holdMs idleMs }

end Config
end Sys2Proof
end

