-- ==== Sys2Proof/WellFormed.lean ====
section
/-! DEFINITION. What makes a transaction, a line of a transaction program and a set of parameters well formed. -/

namespace Sys2Proof

/-- Every term of `Instr` is a transaction of R84: the operand is 32 bits by its type and every bit pattern is legal
(R85, R87), so there is no ill-formed one. -/
def Instr.wf : Instr → Bool
  | .rdPwmCsr | .rdPwmDiv | .rdPwmCtr | .rdPwmCc | .rdPwmTop => true
  | .rdTmrCsr | .rdTmrCnt | .rdTmrMatch | .rdTmrIntr => true
  | .wrPwmCsr _ | .wrPwmDiv _ | .wrPwmCtr _ | .wrPwmCc _ | .wrPwmTop _ => true
  | .wrTmrCsr _ | .wrTmrCnt _ | .wrTmrMatch _ | .wrTmrIntr _ => true

/-- How many bits of `WDATA` a field has (R82). -/
def Field.width : Field → Nat
  | .en => 1
  | .intPart => 8
  | .frac => 4
  | .level => 17
  | .wrap => 16
  | .ie => 1
  | .matchValue => 32
  | .ipClr => 1
  | .ovrClr => 1

/-- Whether a register has a field (R82). -/
def Reg.hasField : Reg → Field → Bool
  | .pwmCsr, .en => true
  | .pwmDiv, .intPart => true
  | .pwmDiv, .frac => true
  | .pwmCc, .level => true
  | .pwmTop, .wrap => true
  | .tmrCsr, .en => true
  | .tmrCsr, .ie => true
  | .tmrMatch, .matchValue => true
  | .tmrIntr, .ipClr => true
  | .tmrIntr, .ovrClr => true
  | _, _ => false

/-- A literal offset is a byte offset of the 8-bit address lines (R89, R37). -/
def RegRef.wf : RegRef → Bool
  | .named _ => true
  | .literal off => decide (off < 256)

/-- A field may be named for a register that has it, with a value that fits it (R82, R89). R89 does not say whether fields
may follow a literal offset, whose register it does not name: such a line is ill formed here (DESIGN CHOICE, log 23,
safe). -/
def RegRef.fieldOk (r : RegRef) (f : Field × Nat) : Bool :=
  decide (f.2 < 2 ^ f.1.width) &&
    match r with
    | .named reg => reg.hasField f.1
    | .literal _ => false

/-- `<value>` is 0..0xFFFFFFFF, or fields of the register written (R89). -/
def Value.wf (r : RegRef) : Value → Bool
  | .number n => decide (n < 2 ^ 32)
  | .fields fs => fs.all r.fieldOk

/-- A line of a transaction program is well formed (R89). -/
def Item.wf : Item → Bool
  | .wr r v => r.wf && v.wf r
  | .rd r => r.wf
  | .idle _ => true

/-- The constraints R8 puts on the parameters. -/
def Config.Params.wf (P : Config.Params) : Bool :=
  decide (0 < P.fSys) && decide (16 ≤ P.pwmDiv16) && decide (P.pwmDiv16 ≤ 4095)

end Sys2Proof
end

