-- ==== Sys2Proof/Decode.lean ====
section
/-! DEFINITION. The decoder, total on any bytes and rejecting by name, the encoder written from the same table
(30_encoding.md R80, R84), and the assembler of a transaction program (R89). -/

namespace Sys2Proof

/-! ### The transaction word (R80) -/

/-- `word = (WE << 40) | (ADDR << 32) | WDATA` (R80). -/
def txnWord (we : Bool) (addr : Offset) (wdata : Word) : BusWord :=
  ((BitVec.ofBool we).setWidth 41 <<< 40) ||| (addr.setWidth 41 <<< 32) ||| wdata.setWidth 41

/-- `WE`, bit 40 (R80). -/
def weOf (w : BusWord) : Bool := w.getLsbD 40

/-- `ADDR`, bits 39:32 (R80). -/
def addrOf (w : BusWord) : Offset := w.extractLsb' 32 8

/-- `WDATA`, bits 31:0 (R80). -/
def wdataOf (w : BusWord) : Word := w.extractLsb' 0 32

/-! ### Registers and offsets (R65) -/

/-- The word index `i` of a register (R65). -/
def Reg.index : Reg → Nat
  | .pwmCsr => 0
  | .pwmDiv => 1
  | .pwmCtr => 2
  | .pwmCc => 3
  | .pwmTop => 4
  | .tmrCsr => 5
  | .tmrCnt => 6
  | .tmrMatch => 7
  | .tmrIntr => 8

/-- The byte offset of a register from `BASE` (R65). -/
def Reg.offset (r : Reg) : Offset := BitVec.ofNat 8 (4 * r.index)

/-- The register at a byte offset, where there is one (R65, R66). -/
def regAt (a : Offset) : Option Reg :=
  match a.toNat with
  | 0x00 => some .pwmCsr
  | 0x04 => some .pwmDiv
  | 0x08 => some .pwmCtr
  | 0x0C => some .pwmCc
  | 0x10 => some .pwmTop
  | 0x14 => some .tmrCsr
  | 0x18 => some .tmrCnt
  | 0x1C => some .tmrMatch
  | 0x20 => some .tmrIntr
  | _ => none

/-- The read transaction of a register (R84). -/
def Reg.read : Reg → Instr
  | .pwmCsr => .rdPwmCsr
  | .pwmDiv => .rdPwmDiv
  | .pwmCtr => .rdPwmCtr
  | .pwmCc => .rdPwmCc
  | .pwmTop => .rdPwmTop
  | .tmrCsr => .rdTmrCsr
  | .tmrCnt => .rdTmrCnt
  | .tmrMatch => .rdTmrMatch
  | .tmrIntr => .rdTmrIntr

/-- The write transaction of a register (R84). -/
def Reg.write (r : Reg) (wdata : Word) : Instr :=
  match r with
  | .pwmCsr => .wrPwmCsr wdata
  | .pwmDiv => .wrPwmDiv wdata
  | .pwmCtr => .wrPwmCtr wdata
  | .pwmCc => .wrPwmCc wdata
  | .pwmTop => .wrPwmTop wdata
  | .tmrCsr => .wrTmrCsr wdata
  | .tmrCnt => .wrTmrCnt wdata
  | .tmrMatch => .wrTmrMatch wdata
  | .tmrIntr => .wrTmrIntr wdata

/-! ### Decoding -/

/-- Why a word or a byte string is no transaction of R84. -/
inductive Reject where
  /-- `ADDR[1:0] != 0` (R62, R86): the illegal transaction of R121 -/
  | misaligned (addr : Offset) (we : Bool)
  /-- a multiple of 4 that holds no register (R66, R86): the illegal transaction of R121 -/
  | unmapped (addr : Offset) (we : Bool)
  /-- a stored word with a bit above bit 40: the format has 41 bits (R80); log 13 -/
  | beyondFormat
  /-- not the six bytes a stored word has; log 13 -/
  | badLength (n : Nat)
  deriving DecidableEq, Repr

/-- What a decoder answers. -/
inductive Decoded where
  | ok (i : Instr)
  | reject (r : Reject)
  deriving DecidableEq, Repr

/-- The instruction of a `Decoded`, where there is one. -/
def Decoded.instr : Decoded → Option Instr
  | .ok i => some i
  | .reject _ => none

/-- Why the address of a transaction selects no row (R86). -/
def addressReject (addr : Offset) (we : Bool) : Reject :=
  if addr.extractLsb' 0 2 = 0 then .unmapped addr we else .misaligned addr we

/-- The row a transaction word selects: the opcode is the pair (`WE`, `ADDR`) (R80, R84). -/
def decodeWord (w : BusWord) : Decoded :=
  match regAt (addrOf w) with
  | some r => .ok (if weOf w then r.write (wdataOf w) else r.read)
  | none => .reject (addressReject (addrOf w) (weOf w))

/-- The number that stored bytes stand for, first byte lowest (R61), cut to the 41 bits of the format. -/
def bytesWord (b0 b1 b2 b3 b4 b5 : Byte) : BusWord :=
  b0.setWidth 41 ||| (b1.setWidth 41 <<< 8) ||| (b2.setWidth 41 <<< 16) ||| (b3.setWidth 41 <<< 24) |||
    (b4.setWidth 41 <<< 32) ||| (b5.setWidth 41 <<< 40)

/-- A transaction word stored as bytes, little-endian (R61), in six bytes; DESIGN CHOICE, log 13, safe: the seven bits
above the format must be 0. -/
def decodeBytes : List Byte → Decoded
  | [b0, b1, b2, b3, b4, b5] =>
    if b5.extractLsb' 1 7 = 0 then
      decodeWord (bytesWord b0 b1 b2 b3 b4 b5)
    else .reject .beyondFormat
  | bs => .reject (.badLength bs.length)

/-! ### Encoding -/

/-- The register a transaction reads or writes (R84). -/
def Instr.reg : Instr → Reg
  | .rdPwmCsr => .pwmCsr
  | .wrPwmCsr _ => .pwmCsr
  | .rdPwmDiv => .pwmDiv
  | .wrPwmDiv _ => .pwmDiv
  | .rdPwmCtr => .pwmCtr
  | .wrPwmCtr _ => .pwmCtr
  | .rdPwmCc => .pwmCc
  | .wrPwmCc _ => .pwmCc
  | .rdPwmTop => .pwmTop
  | .wrPwmTop _ => .pwmTop
  | .rdTmrCsr => .tmrCsr
  | .wrTmrCsr _ => .tmrCsr
  | .rdTmrCnt => .tmrCnt
  | .wrTmrCnt _ => .tmrCnt
  | .rdTmrMatch => .tmrMatch
  | .wrTmrMatch _ => .tmrMatch
  | .rdTmrIntr => .tmrIntr
  | .wrTmrIntr _ => .tmrIntr

/-- The write data of a write transaction; none for a read (R84). -/
def Instr.wdata : Instr → Option Word
  | .wrPwmCsr v => some v
  | .wrPwmDiv v => some v
  | .wrPwmCtr v => some v
  | .wrPwmCc v => some v
  | .wrPwmTop v => some v
  | .wrTmrCsr v => some v
  | .wrTmrCnt v => some v
  | .wrTmrMatch v => some v
  | .wrTmrIntr v => some v
  | .rdPwmCsr => none
  | .rdPwmDiv => none
  | .rdPwmCtr => none
  | .rdPwmCc => none
  | .rdPwmTop => none
  | .rdTmrCsr => none
  | .rdTmrCnt => none
  | .rdTmrMatch => none
  | .rdTmrIntr => none

/-- The `match` column of R84: `(WE << 40) | (ADDR << 32)`. -/
def Instr.opcode : Instr → BusWord
  | .rdPwmCsr => 0x00000000000
  | .wrPwmCsr _ => 0x10000000000
  | .rdPwmDiv => 0x00400000000
  | .wrPwmDiv _ => 0x10400000000
  | .rdPwmCtr => 0x00800000000
  | .wrPwmCtr _ => 0x10800000000
  | .rdPwmCc => 0x00C00000000
  | .wrPwmCc _ => 0x10C00000000
  | .rdPwmTop => 0x01000000000
  | .wrPwmTop _ => 0x11000000000
  | .rdTmrCsr => 0x01400000000
  | .wrTmrCsr _ => 0x11400000000
  | .rdTmrCnt => 0x01800000000
  | .wrTmrCnt _ => 0x11800000000
  | .rdTmrMatch => 0x01C00000000
  | .wrTmrMatch _ => 0x11C00000000
  | .rdTmrIntr => 0x02000000000
  | .wrTmrIntr _ => 0x12000000000

/-- The `mask` of every row: `WE` and `ADDR` (R84). -/
def opcodeMask : BusWord := 0x1FF00000000

/-- The word of a transaction: its row's match with `WDATA` in bits 31:0, canonical 0 for a read (R80, R84). -/
def encode (i : Instr) : BusWord := i.opcode ||| (i.wdata.getD 0).setWidth 41

/-- The stored form of a transaction word: six bytes, little-endian (R61). -/
def wordBytes (w : BusWord) : List Byte :=
  [w.extractLsb' 0 8, w.extractLsb' 8 8, w.extractLsb' 16 8, w.extractLsb' 24 8, w.extractLsb' 32 8,
   (w.extractLsb' 40 1).setWidth 8]

/-- The stored form of a transaction. -/
def encodeBytes (i : Instr) : List Byte := wordBytes (encode i)

/-! ### A word numbered as the opcode table numbers it -/

/-- The six bytes of a number below 2^48, little-endian (R61). -/
def bytesOfNat (v : Nat) : List Byte :=
  [BitVec.ofNat 8 v, BitVec.ofNat 8 (v / 2 ^ 8), BitVec.ofNat 8 (v / 2 ^ 16), BitVec.ofNat 8 (v / 2 ^ 24),
   BitVec.ofNat 8 (v / 2 ^ 32), BitVec.ofNat 8 (v / 2 ^ 40)]

/-- The instruction the decoder reads from a transaction whose bits are `w`, bit 0 least significant; bits from `nbits`
on are 0. -/
def decodeTableWord (nbits w : Nat) : Option Instr :=
  let v := w % 2 ^ nbits
  if v < 2 ^ 48 then (decodeBytes (bytesOfNat v)).instr else none

/-- The same bits as a transaction the ports can carry: none where they do not fit the 41 bits of R80. -/
def tableBusWord (nbits w : Nat) : Option BusWord :=
  let v := w % 2 ^ nbits
  if v < 2 ^ 41 then some (BitVec.ofNat 41 v) else none

/-! ### Transaction programs (R89) -/

/-- The lowest bit of a field in `WDATA` (R82). -/
def Field.lsb : Field → Nat
  | .intPart => 4
  | .ie => 1
  | .ovrClr => 1
  | .en => 0
  | .frac => 0
  | .level => 0
  | .wrap => 0
  | .matchValue => 0
  | .ipClr => 0

/-- The 32-bit value of `<value>`: the number, or the OR of the fields at their positions (R89, R82). -/
def Value.toWord : Value → Word
  | .number n => BitVec.ofNat 32 n
  | .fields fs => fs.foldl (fun acc f => acc ||| BitVec.ofNat 32 (f.2 * 2 ^ f.1.lsb)) 0

/-- The byte offset of `<REG>` (R89). -/
def RegRef.offset : RegRef → Offset
  | .named r => r.offset
  | .literal off => BitVec.ofNat 8 off

/-- The cycles a line of a program stands for: what the bus carries in each, none for an idle cycle (R89). An ill-formed line
is given cycles too (log 23). -/
def Item.cycles : Item → List (Option BusWord)
  | .wr r v => [some (txnWord true r.offset v.toWord)]
  | .rd r => [some (txnWord false r.offset 0)]
  | .idle n => List.replicate n none

/-- The cycles of a whole program: lines without an `IDLE` between them are presented in consecutive cycles (R89). -/
def assemble (p : List Item) : List (Option BusWord) := p.flatMap Item.cycles

end Sys2Proof
end

