-- ==== Sys2Proof/Machine/State.lean ====
section
/-! DEFINITION. The state of the machine: the block PWMT (10_state.md R20), the host records (R41 to R43), what R8 leaves
to the host's timing, and the reset state (R45). -/

namespace Sys2Proof
namespace Machine

/-- The block PWMT: the fourteen elements of R20. -/
structure Pwmt where
  /-- `PWM_EN` (R21) -/
  pwmEn : Bool
  /-- `DIV_INT` (R22) -/
  divInt : BitVec 8
  /-- `DIV_FRAC` (R22) -/
  divFrac : BitVec 4
  /-- `TOP` (R23) -/
  top : BitVec 16
  /-- `CC` (R24) -/
  cc : BitVec 17
  /-- `CTR` (R25) -/
  ctr : BitVec 16
  /-- `ACC` (R26) -/
  acc : BitVec 12
  /-- `CC_ACT` (R27) -/
  ccAct : BitVec 17
  /-- `TMR_EN` (R28) -/
  tmrEn : Bool
  /-- `TMR_IE` (R29) -/
  tmrIe : Bool
  /-- `TCNT` (R30) -/
  tcnt : BitVec 32
  /-- `TMATCH` (R31) -/
  tmatch : BitVec 32
  /-- `IP` (R32) -/
  ip : Bool
  /-- `OVR` (R33) -/
  ovr : Bool
  deriving DecidableEq, Repr

/-- The error kinds of R225. -/
inductive ErrorKind where
  | configurationError
  | schedulerUnavailable
  | outOfRangePulse
  | busError
  deriving DecidableEq, Repr

/-- An error that stops a host context, with the value R225 records. `OutOfRangePulse` is no error of this kind: it is
recovered by clamping and not recorded (R228). -/
inductive HostError where
  /-- `ConfigurationError`, `PinUnsupported`: records the pin (R172 a) -/
  | pinUnsupported (pin : Nat)
  /-- `ConfigurationError`, `WrapOutOfRange`: records the computed wrap (R172 b, c) -/
  | wrapOutOfRange (wrap : Int)
  /-- `SchedulerUnavailable` (R206, R227) -/
  | schedulerUnavailable
  /-- `BusError`: records `addr` and `we` (R229) -/
  | busError (addr : Offset) (we : Bool)
  deriving DecidableEq, Repr

/-- What the host does at the end of the cycle in which a transaction of an operation was presented. -/
inductive AfterTxn where
  /-- nothing -/
  | nothing
  /-- `configure` completes: `cfg` is stored (R170) -/
  | storeConfig (c : PwmConfig)
  /-- `arm` has read `TMR_CSR`: it checks bit 0, then the period (R205, R206, R207) -/
  | armChecks (periodMs : Nat) (callback : Callback)
  /-- `arm` has cleared the stale flags: the callback is stored, before the enable (R205) -/
  | storeHandler (callback : Callback)
  /-- `isr` has acknowledged: it runs the callback (R208) -/
  | runCallback
  /-- a transaction of a host function as callback has completed: the function goes on with its response (R205) -/
  | resumeCallback
  /-- `isr` has disabled the timer because the callback returned false: the callback is forgotten (R208, R210) -/
  | forgetHandler
  deriving DecidableEq, Repr

/-- One transaction an operation is going to present, with what follows it. -/
structure PendingTxn where
  word : BusWord
  after : AfterTxn
  deriving DecidableEq, Repr

/-- How far the main context is with the operation at `hpc`; the model's own field, log 16. -/
inductive Phase where
  /-- the operation has not begun -/
  | ready
  /-- these transactions of it are still to be presented -/
  | txns (queue : List PendingTxn)
  /-- a `Wait` with at least this many cycles left -/
  | waiting (cycles : Nat)
  deriving DecidableEq, Repr

/-- The host: the records of R41 to R43, the recorded fault of R229, and the model's own progress fields (log 16). -/
structure HostState where
  /-- `cfg` (R41); none is `unset` -/
  cfg : Option PwmConfig
  /-- `servo` (R42); none is `unset` -/
  servo : Option Servo
  /-- `handler` (R43) -/
  handler : Option Callback
  /-- `in_service` (R43) -/
  inService : Bool
  /-- `halted` (R43, R232) -/
  halted : Bool
  /-- `hpc` (R43) -/
  hpc : Nat
  /-- the fault recorded and never cleared (R229) -/
  error : Option HostError
  /-- progress of the main context in the operation at `hpc` -/
  phase : Phase
  /-- idle cycles before main's next transaction, `L_TXN`; none: not drawn yet -/
  mainGap : Option Nat
  /-- transactions `isr` is still going to present -/
  isrQueue : List PendingTxn
  /-- idle cycles before `isr`'s next transaction, `L_TXN`; none: not drawn yet -/
  isrGap : Option Nat
  /-- cycles before a requested `isr` starts, `L_IRQ`; none: not drawn yet -/
  irqGap : Option Nat
  /-- cycles the `isr` in service lasts at least, `T_CB` -/
  isrLeft : Nat
  deriving DecidableEq, Repr

/-- What an outside master puts on the input ports in one cycle (R37): `rst`, and the transaction (`bus_valid = 1`) or
none (`bus_valid = 0`). One transaction at most, as R60 has it. -/
structure PortInput where
  rst : Bool
  bus : Option BusWord
  deriving DecidableEq, Repr

/-- The state of the whole system: the block, the host, and the ports. -/
structure State where
  /-- the block -/
  hw : Pwmt
  /-- the host -/
  host : HostState
  /-- `bus_rdata` and `bus_err` of the cycle before; none: that cycle carried no transaction (R81); log 15 -/
  resp : Option Response
  /-- what an outside master drives in this cycle and the next ones; none left: the host program drives (log 1) -/
  inputs : List PortInput
  /-- how many timing values have been drawn; log 5 -/
  draws : Nat
  deriving DecidableEq, Repr

/-- A step that ends in a fault. The spec gives the machine none: `Clk` is total (R11, R100), and the errors of R225 are
taken by the host in a next state, with the hardware running on (R229, R232). So nothing raises a fault, which is
safe: no claim can rest on one. -/
inductive Fault where
  deriving DecidableEq, Repr

/-- Why a step is refused: the spec gives the situation no meaning (R11). A refused run supports no claim, so each of these
is safe. -/
inductive Refusal where
  /-- raised by `exec` for an instruction without a meaning; no arm raises it; safe -/
  | notModelled (mnemonic : String)
  /-- raised by `configure` when `cfg` is already set (R180, V10); safe -/
  | configureTwice
  /-- raised by `configure` for another frequency than 50 Hz (R180, V10); safe -/
  | frequencyNotAdmitted
  /-- raised by `set_pulse` when `cfg` is unset (R174, R273, V9); safe -/
  | setPulseBeforeConfigure
  /-- raised by `arm` for a period `TMATCH` cannot hold (R207, V11); safe -/
  | periodNotRepresentable
  /-- raised by `tick` and by `isr` when `servo` is unset (R42, R190, V12); safe -/
  | servoUnset
  /-- raised by `isr` when `handler` is none (R208, V12); safe -/
  | handlerUnset
  deriving DecidableEq, Repr

/-- The outcome of a step of this machine. -/
abbrev StepOutcome := Host.Outcome State Fault Refusal

/-- The reset values of the block (R45). -/
def Pwmt.reset : Pwmt :=
  { pwmEn := false
    divInt := 1
    divFrac := 0
    top := 0xFFFF
    cc := 0
    ctr := 0
    acc := 0
    ccAct := 0
    tmrEn := false
    tmrIe := false
    tcnt := 0
    tmatch := 0xFFFFFFFF
    ip := false
    ovr := false }

/-- The reset values of the host (R45, R260); the progress fields at the values log 16 names. -/
def HostState.reset : HostState :=
  { cfg := none
    servo := none
    handler := none
    inService := false
    halted := false
    hpc := 0
    error := none
    phase := .ready
    mainGap := none
    isrQueue := []
    isrGap := none
    irqGap := none
    isrLeft := 0 }

/-- The machine right after reset (R45); no response, no outside input, nothing drawn (logs 1, 5, 15). -/
def State.reset : State :=
  { hw := Pwmt.reset
    host := HostState.reset
    resp := none
    inputs := []
    draws := 0 }

end Machine
end Sys2Proof
end

