-- ==== Sys2Proof/Machine/Operands.lean ====
section
/-! DEFINITION. Operand forms: the fields of `WDATA` (30_encoding.md R82) and the host-side arithmetic that turns the
operands of `configure`, `set_pulse`, `Wait` and `arm` into register values (R83). -/

namespace Sys2Proof
namespace Machine

open Config (Params)

/-! ### Fields of `WDATA` (R82) -/

/-- `EN` of `PWM_CSR` and `TMR_CSR`, bit 0. -/
def fieldEn (v : Word) : Bool := v.getLsbD 0

/-- `IE` of `TMR_CSR`, bit 1. -/
def fieldIe (v : Word) : Bool := v.getLsbD 1

/-- `INT` of `PWM_DIV`, bits 11:4. -/
def fieldInt (v : Word) : BitVec 8 := v.extractLsb' 4 8

/-- `FRAC` of `PWM_DIV`, bits 3:0. -/
def fieldFrac (v : Word) : BitVec 4 := v.extractLsb' 0 4

/-- `LEVEL` of `PWM_CC`, bits 16:0. -/
def fieldLevel (v : Word) : BitVec 17 := v.extractLsb' 0 17

/-- `WRAP` of `PWM_TOP`, bits 15:0. -/
def fieldWrap (v : Word) : BitVec 16 := v.extractLsb' 0 16

/-- `IP_CLR` of `TMR_INTR`, bit 0. -/
def fieldIpClr (v : Word) : Bool := v.getLsbD 0

/-- `OVR_CLR` of `TMR_INTR`, bit 1. -/
def fieldOvrClr (v : Word) : Bool := v.getLsbD 1

/-! ### The divider -/

/-- `DIV16 = 16 * DIV_INT + DIV_FRAC`, the divider in sixteenths (R22). -/
def Pwmt.div16 (h : Pwmt) : Nat := 16 * h.divInt.toNat + h.divFrac.toNat

/-! ### Host arithmetic, on mathematical integers (R83, R123) -/

/-- `clamp(v, lo, hi)` (R9). -/
def clamp (v lo hi : Int) : Int := if v < lo then lo else if hi < v then hi else v

/-- The named condition `OutOfRangePulse` of `set_pulse(p)`: recovered by clamping, not reported (R228). -/
def outOfRangePulse (p : Int) : Bool := decide (p < 0) || decide ((Config.periodUs : Int) < p)

/-- The pulse after the clamp to [0, 20000] (R177). -/
def clampedPulse (p : Int) : Nat := (clamp p 0 Config.periodUs).toNat

/-- `level = (q * period_counts) div 20000`, the product first (R175). -/
def levelOf (p : Int) (periodCounts : Nat) : Nat := clampedPulse p * periodCounts / Config.periodUs

/-- `period_counts = (16 * F_SYS) div (50 * div16)` (R171). -/
def periodCountsOf (P : Params) : Nat := 16 * P.fSys / (Config.pwmFreq * P.pwmDiv16)

/-- `wrap = period_counts - 1`, an integer: -1 where no count fits (R171, R172). -/
def wrapOf (P : Params) : Int := (periodCountsOf P : Int) - 1

/-- `(ms * F_SYS) div 1000`, the cycles in a number of milliseconds (R207, R212). -/
def cyclesOfMs (P : Params) (ms : Nat) : Nat := ms * P.fSys / 1000

/-! ### Host accesses (R10, R125) -/

/-- The platform address of a register: `BASE + off` (R125). -/
def hostAddress (base : Nat) (r : Reg) : Nat := base + r.offset.toNat

/-- What the platform's decoder leaves of a platform address: the byte offset the block sees (R125). -/
def platformOffset (base addr : Nat) : Option Offset :=
  if base ≤ addr ∧ addr < base + 256 then some (BitVec.ofNat 8 (addr - base)) else none

/-- `MemRead(off, 4)`: the read transaction of a register, canonical `WDATA` (R10, R80). -/
def memRead (r : Reg) : BusWord := txnWord false r.offset 0

/-- `MemWrite(off, 4, v)`: the write transaction of a register (R10). -/
def memWrite (r : Reg) (v : Nat) : BusWord := txnWord true r.offset (BitVec.ofNat 32 v)

end Machine
end Sys2Proof
end

