-- ==== Sys2Proof/Machine/Flags.lean ====
section
/-! DEFINITION. The outputs and flags: `pwm_out` (10_state.md R34), `irq` (R35), and the next `IP` and `OVR`
(42_timer_unit.md R152). -/

namespace Sys2Proof
namespace Machine

/-- `pwm_out`: 1 when the slice is enabled and `CTR < CC_ACT`, unsigned (R34, R135). -/
def Pwmt.pwmOut (h : Pwmt) : Bool := h.pwmEn && decide (h.ctr.toNat < h.ccAct.toNat)

/-- `irq = IP and TMR_IE`, a level (R35, R155). -/
def Pwmt.irq (h : Pwmt) : Bool := h.ip && h.tmrIe

/-- `FlagNext`: the next `IP` and `OVR` of a cycle with or without a match and with the clears of a `WR.TMR_INTR` (R152).
A set wins over a clear for `IP`; the clear of `IP` comes before the overrun test (R101). -/
def flagNext (h : Pwmt) (isMatch clrIp clrOvr : Bool) : Bool × Bool :=
  let ipC := h.ip && !clrIp
  let ovrC := h.ovr && !clrOvr
  if isMatch then (true, ovrC || ipC) else (ipC, ovrC)

end Machine
end Sys2Proof
end

