-- ==== Sys2Proof/Machine/PwmUnit.lean ====
section
/-! DEFINITION. The PWM unit's next-state function (41_pwm_unit.md R130): clock divider, counter, level latch. -/

namespace Sys2Proof
namespace Machine

/-- What `PwmNext` returns: the next `CTR`, `ACC` and `CC_ACT` (R130). -/
structure PwmNext where
  ctr : BitVec 16
  acc : BitVec 12
  ccAct : BitVec 17
  deriving DecidableEq, Repr

/-- A counter tick happens in this cycle: the slice is enabled and `ACC + 16 >= DIV16` (R131). -/
def Pwmt.counterTick (h : Pwmt) : Bool := h.pwmEn && decide (h.div16 ≤ h.acc.toNat + 16)

/-- This cycle's counter tick is a wrap: it finds `CTR = TOP` (R132). -/
def Pwmt.wraps (h : Pwmt) : Bool := h.counterTick && decide (h.ctr = h.top)

/-- `PwmNext` (R130 to R134). The sums are formed on naturals (R123); the stored `ACC` and `CTR` have the widths of R20,
which drops a bit only in states no run reaches (DEDUCED, log 9, unsafe for such states only). -/
def pwmNext (h : Pwmt) : PwmNext :=
  if h.pwmEn then
    let a := h.acc.toNat + 16
    if a < h.div16 then
      { ctr := h.ctr, acc := BitVec.ofNat 12 a, ccAct := h.ccAct }
    else if h.ctr = h.top then
      { ctr := 0, acc := BitVec.ofNat 12 (a - h.div16), ccAct := h.cc }
    else
      { ctr := h.ctr + 1, acc := BitVec.ofNat 12 (a - h.div16), ccAct := h.ccAct }
  else
    { ctr := 0, acc := 0, ccAct := h.cc }

end Machine
end Sys2Proof
end

