-- ==== Sys2Proof/Machine/TimerUnit.lean ====
section
/-! DEFINITION. The timer unit's next-state function (42_timer_unit.md R150). -/

namespace Sys2Proof
namespace Machine

/-- What `TmrNext` returns: the next `TCNT` and the one-cycle signal `match` (R150). -/
structure TmrNext where
  tcnt : BitVec 32
  isMatch : Bool
  deriving DecidableEq, Repr

/-- `TmrNext` (R150, R151, R153); `TCNT + 1` is taken modulo 2^32 as R150 writes it. -/
def tmrNext (h : Pwmt) : TmrNext :=
  if h.tmrEn then
    if h.tcnt = h.tmatch then { tcnt := 0, isMatch := true }
    else { tcnt := h.tcnt + 1, isMatch := false }
  else
    { tcnt := 0, isMatch := false }

end Machine
end Sys2Proof
end

