-- ==== Sys2Proof/Machine/Ops.lean ====
section
/-! DEFINITION. The shared operations: reading a register (10_state.md R40), the clock edge `Clk`
(40_clock_step_and_bus.md R100), a transaction's cycle, taking a host error (60_exceptions.md R229, R232), entering and
leaving the interrupt handler (R234, R236), and reset (70_reset_and_hazards.md R260). -/

namespace Sys2Proof
namespace Machine

/-! ### Registers -/

/-- The read value of a register, 32 bits, `x[i]` of R40. Bits that hold no field read 0 (R87). -/
def Pwmt.readReg (h : Pwmt) : Reg → Word
  | .pwmCsr => (BitVec.ofBool h.pwmEn).setWidth 32
  | .pwmDiv => (h.divInt.setWidth 32 <<< 4) ||| h.divFrac.setWidth 32
  | .pwmCtr => h.ctr.setWidth 32
  | .pwmCc => h.cc.setWidth 32
  | .pwmTop => h.top.setWidth 32
  | .tmrCsr => (BitVec.ofBool h.tmrIe ++ BitVec.ofBool h.tmrEn).setWidth 32
  | .tmrCnt => h.tcnt
  | .tmrMatch => h.tmatch
  | .tmrIntr => (BitVec.ofBool h.ovr ++ BitVec.ofBool h.ip).setWidth 32

/-! ### The clock edge -/

/-- `w`, what a transaction writes: a partial map from the bus-written elements to new values, and the two clear bits
(R100, R101). The default writes nothing. -/
structure BusWrite where
  pwmEn : Option Bool := none
  divInt : Option (BitVec 8) := none
  divFrac : Option (BitVec 4) := none
  top : Option (BitVec 16) := none
  cc : Option (BitVec 17) := none
  tmrEn : Option Bool := none
  tmrIe : Option Bool := none
  tmatch : Option (BitVec 32) := none
  clrIp : Bool := false
  clrOvr : Bool := false
  deriving DecidableEq, Repr

/-- `Clk` on the block (R100): every right-hand side reads the pre-state; the bus writes its eight elements, the hardware
its four, and `IP`, `OVR` come from `FlagNext`. -/
def clk (h : Pwmt) (w : BusWrite) : Pwmt :=
  let p := pwmNext h
  let t := tmrNext h
  let f := flagNext h t.isMatch w.clrIp w.clrOvr
  { pwmEn := w.pwmEn.getD h.pwmEn
    divInt := w.divInt.getD h.divInt
    divFrac := w.divFrac.getD h.divFrac
    top := w.top.getD h.top
    cc := w.cc.getD h.cc
    ctr := p.ctr
    acc := p.acc
    ccAct := p.ccAct
    tmrEn := w.tmrEn.getD h.tmrEn
    tmrIe := w.tmrIe.getD h.tmrIe
    tcnt := t.tcnt
    tmatch := w.tmatch.getD h.tmatch
    ip := f.1
    ovr := f.2 }

/-- The block's edge in a cycle that carries no transaction, or an illegal one: the hardware part only (R122, R121). -/
def idleClk (h : Pwmt) : Pwmt := clk h {}

/-! ### The cycle of a transaction -/

/-- One cycle: the edge with what the transaction writes, and its response (R100, R102). -/
def State.cycle (s : State) (w : BusWrite) (r : Option Response) : State :=
  { s with hw := clk s.hw w, resp := r }

/-- A cycle without a transaction (R122). -/
def State.idleCycle (s : State) : State := s.cycle {} none

/-- The cycle of a legal read: the register's value in the pre-state, no error, nothing written (R69, R102). -/
def State.readCycle (s : State) (r : Reg) : State :=
  s.cycle {} (some { rdata := s.hw.readReg r, err := false })

/-- The cycle of a legal write: what it writes, `rdata = 0`, no error (R69, R102). -/
def State.writeCycle (s : State) (w : BusWrite) : State :=
  s.cycle w (some { rdata := 0, err := false })

/-! ### Errors: taking one -/

/-- The kind of an error (R225). -/
def HostError.kind : HostError → ErrorKind
  | .pinUnsupported _ => .configurationError
  | .wrapOutOfRange _ => .configurationError
  | .schedulerUnavailable => .schedulerUnavailable
  | .busError _ _ => .busError

/-- The code of an error kind, the spec's own numbering (R225). -/
def ErrorKind.code : ErrorKind → Nat
  | .configurationError => 1
  | .schedulerUnavailable => 2
  | .outOfRangePulse => 3
  | .busError => 4

/-- The sub-kind's number, for the errors that have one (R225). -/
def HostError.subKind : HostError → Option Nat
  | .pinUnsupported _ => some 1
  | .wrapOutOfRange _ => some 2
  | .schedulerUnavailable => none
  | .busError _ _ => none

/-- TAKING AN ERROR: the host stops, `halted <- 1`, and the error is recorded (R229, R232). An error already recorded is
never cleared, so the first one stays (DEDUCED, log 3, safe). -/
def HostState.raiseFatal (h : HostState) (e : HostError) : HostState :=
  { h with halted := true, error := some (h.error.getD e) }

/-- The cycle of an illegal transaction: hardware part only, `(0, 1)`, and `BusError(addr, we)` towards the host (R121,
R229). -/
def State.illegalCycle (s : State) (addr : Offset) (we : Bool) : State :=
  { s.cycle {} (some { rdata := 0, err := true }) with host := s.host.raiseFatal (.busError addr we) }

/-! ### The interrupt: entry and return -/

/-- Interrupt entry: the block saves nothing; the host marks the handler in service, which is going to present the
acknowledgement `WR TMR_INTR, 1` first (R208, R234). `duration` is the drawn `T_CB` (log 6). -/
def HostState.enterIsr (h : HostState) (duration : Nat) : HostState :=
  { h with inService := true, isrQueue := [], isrGap := none, irqGap := none, isrLeft := duration }

/-- Interrupt return: `in_service <- 0`; the main context resumes where it was (R236). -/
def HostState.leaveIsr (h : HostState) : HostState :=
  { h with inService := false, isrQueue := [], isrGap := none, isrLeft := 0 }

/-! ### Reset -/

/-- System reset: the block and the host are in their reset state whatever the pre-state and the transaction presented,
which is not performed and gets no response (R260). The outside's later inputs and the count of drawn values go on
(log 5). -/
def State.systemReset (s : State) : State :=
  { State.reset with inputs := s.inputs, draws := s.draws }

end Machine
end Sys2Proof
end

