-- ==== Sys2Proof/Machine/BackEnd.lean ====
section
/-! DEFINITION. The PWM Back-End's operations as the host runs them: `configure` and `set_pulse` (43_pwm_backend.md R170,
R174). -/

namespace Sys2Proof
namespace Machine

open Config (Params)

/-- What beginning an operation of the main context gives: the spec has no meaning for the call (R11), an error of R225
before any transaction, the work it leaves for the next cycles, or an operation complete at once. -/
inductive Begun where
  | refuse (r : Refusal)
  | fatal (e : HostError)
  | start (p : Phase)
  | done (h : HostState)
  deriving DecidableEq, Repr

/-- A transaction with nothing to do after it. -/
def plainTxn (w : BusWord) : PendingTxn := { word := w, after := .nothing }

/-- The record `configure` stores and returns (R41, R170; C7). -/
def configOf (P : Params) (pin : Nat) : PwmConfig :=
  { pin := pin, div16 := P.pwmDiv16, wrap := (wrapOf P).toNat, periodCounts := periodCountsOf P }

/-- The transactions of `configure`: divider, top, then the enable (R173). -/
def configureTxns (P : Params) (pin : Nat) : List PendingTxn :=
  [ plainTxn (memWrite .pwmDiv P.pwmDiv16),
    plainTxn (memWrite .pwmTop (wrapOf P).toNat),
    { word := memWrite .pwmCsr 1, after := .storeConfig (configOf P pin) } ]

/-- `configure(pin, frequency_hz)` (R170): the refusals of R180, then the pin, then the wrap (R172), then the
transactions. R173 requires `PWM_EN = 0` on entry and no rule says what follows where it is 1: `configure` does not look,
the locks ignore the first two writes, and the record is stored all the same (DESIGN CHOICE, log 22, unsafe). -/
def configureOp (P : Params) (pin frequencyHz : Nat) (h : HostState) : Begun :=
  if h.cfg.isSome then .refuse .configureTwice
  else if frequencyHz ≠ Config.pwmFreq then .refuse .frequencyNotAdmitted
  else if pin ∉ P.pwmPins then .fatal (.pinUnsupported pin)
  else if wrapOf P < 0 ∨ 65535 < wrapOf P then .fatal (.wrapOutOfRange (wrapOf P))
  else .start (.txns (configureTxns P pin))

/-- The one transaction of `set_pulse(p)`: `WR.PWM_CC` with the level of `p` (R174, R175). -/
def setPulseWord (c : PwmConfig) (p : Int) : BusWord := memWrite .pwmCc (levelOf p c.periodCounts)

/-- `set_pulse(p)` (R174). -/
def setPulseOp (p : Int) (h : HostState) : Begun :=
  match h.cfg with
  | none => .refuse .setPulseBeforeConfigure
  | some c => .start (.txns [plainTxn (setPulseWord c p)])

end Machine
end Sys2Proof
end

