-- ==== Sys2Proof/Machine/Sweep.lean ====
section
/-! DEFINITION. The Sweep Controller's operation `tick` (44_sweep_controller.md R190). -/

namespace Sys2Proof
namespace Machine

/-- What running a callback gives: no meaning (R11), or the host after it, the transactions it presents, and its continue
flag (R205). -/
inductive CallbackRun where
  | refuse (r : Refusal)
  | ran (h : HostState) (words : List BusWord) (cont : Bool)
  deriving DecidableEq, Repr

/-- One sweep tick of Servo State: step, saturate at the endpoint, reverse in the same tick (R190, R192, R193). -/
def Servo.tick (sv : Servo) : Servo :=
  match sv.direction with
  | .up =>
    let t := sv.targetPulse + Config.pulseStep
    if Config.pulseMax ≤ t then { targetPulse := Config.pulseMax, direction := .down }
    else { targetPulse := t, direction := .up }
  | .down =>
    let t := sv.targetPulse - Config.pulseStep
    if t ≤ Config.pulseMin then { targetPulse := Config.pulseMin, direction := .up }
    else { targetPulse := t, direction := .down }

/-- The initial Servo State (R191). -/
def Servo.initial : Servo := { targetPulse := Config.pulseMin, direction := .up }

/-- The atomic read of `target_pulse` that R72 asks of a host which shares it with the idle context: one read of one
state. Reading `servo` while it is unset has no meaning (R42). -/
def HostState.readTargetPulse (h : HostState) : Option Int := h.servo.map (·.targetPulse)

/-- `tick()`: Servo State advances, then one `set_pulse` with the updated value; it always asks to be called again (R190,
R194, R195 d). -/
def tickOp (h : HostState) : CallbackRun :=
  match h.servo, h.cfg with
  | none, _ => .refuse .servoUnset
  | some _, none => .refuse .setPulseBeforeConfigure
  | some sv, some c => .ran { h with servo := some sv.tick } [setPulseWord c sv.tick.targetPulse] true

end Machine
end Sys2Proof
end

