-- ==== Sys2Proof/Machine/Scheduler.lean ====
section
/-! DEFINITION. The Tick Scheduler's operations: `arm`, and what `isr` does around the callback (45_tick_scheduler.md
R205, R208, R210). -/

namespace Sys2Proof
namespace Machine

open Config (Params)

/-- The handle `arm` returns: the index of the only timer; it carries no meaning (R205, D28). -/
def armHandle : Nat := 0

/-- What the end of a transaction's cycle gives the host: go on, or no meaning (R11). -/
inductive HostResult where
  | ok (h : HostState)
  | refuse (r : Refusal)
  deriving DecidableEq, Repr

/-- `arm` begins with the read of `TMR_CSR` (R205). -/
def armOp (periodMs : Nat) (callback : Callback) : Begun :=
  .start (.txns [{ word := memRead .tmrCsr, after := .armChecks periodMs callback }])

/-- Bit 0 of what `arm` read: the timer is taken (R206). -/
def timerTaken (resp : Option Response) : Bool :=
  match resp with
  | some r => r.rdata.getLsbD 0
  | none => false

/-- The transactions of `arm` after its checks: the match value, the clear of stale flags, the enable; the callback is
stored before the enable (R205). -/
def armTxns (n : Nat) (callback : Callback) : List PendingTxn :=
  [ plainTxn (memWrite .tmrMatch (n - 1)),
    { word := memWrite .tmrIntr 3, after := .storeHandler callback },
    plainTxn (memWrite .tmrCsr 3) ]

/-- `arm` after its read: `SchedulerUnavailable` where the timer is enabled (R206), no meaning where the period does not
fit `TMATCH` (R207), else the writes. -/
def armChecks (P : Params) (periodMs : Nat) (callback : Callback) (resp : Option Response) (h : HostState) :
    HostResult :=
  let n := cyclesOfMs P periodMs
  if timerTaken resp then .ok (h.raiseFatal .schedulerUnavailable)
  else if n < 1 ∨ 2 ^ 32 < n then .refuse .periodNotRepresentable
  else .ok { h with phase := .txns (armTxns n callback) }

/-! ### The callback -/

/-- A value for Servo State as the record it stands for (R42). -/
def ServoValue.toServo (v : ServoValue) : Servo :=
  { targetPulse := Config.pulseMin + v.offset.val, direction := v.direction }

/-- What `isr` still presents once the callback has returned: nothing, or the disable of the timer where it returned false
(R208, R210). -/
def cancelTxns (cont : Bool) : List PendingTxn :=
  if cont then [] else [{ word := memWrite .tmrCsr 0, after := .forgetHandler }]

/-- A transaction of a host function as callback, which goes on with its response. -/
def callbackTxn (w : BusWord) : PendingTxn := { word := w, after := .resumeCallback }

/-- What the host function in service sees, over this Servo State. -/
def HostState.callbackView (h : HostState) (sv : Servo) (memory : Nat) (resp : Option Response) : CallbackView :=
  { memory := memory, servo := sv, cfg := h.cfg, resp := resp }

/-- The records after a move of the host function `id`: its memory, and Servo State where the move gives it a value. -/
def HostState.recordMove (h : HostState) (id : Nat) (m : CallbackMove) : HostState :=
  { h with
    handler := some (.hostFn id m.memory)
    servo := (m.servo.map ServoValue.toServo).or h.servo }

/-- What a move of the host function `id` gives: its next transaction, or what follows its return. -/
def doMove (id : Nat) (m : CallbackMove) (h : HostState) : HostResult :=
  let h1 := h.recordMove id m
  match m.act with
  | .access w => .ok { h1 with isrQueue := [callbackTxn w] }
  | .setPulse p =>
    match h1.cfg with
    | none => .refuse .setPulseBeforeConfigure
    | some c => .ok { h1 with isrQueue := [callbackTxn (setPulseWord c p)] }
  | .tick =>
    match tickOp h1 with
    | .refuse r => .refuse r
    | .ran h2 words _ => .ok { h2 with isrQueue := words.map callbackTxn }
  | .finish cont => .ok { h1 with isrQueue := cancelTxns cont }

/-- A host function as callback goes on, up to its next transaction or its return (R205, R209: it never suspends). Over a
Servo State that is unset it has no meaning (R42, V12). -/
def runHostFn (P : Params) (id memory : Nat) (resp : Option Response) (h : HostState) : HostResult :=
  match h.servo with
  | none => .refuse .servoUnset
  | some sv => doMove id (P.hostFn id (h.callbackView sv memory resp)) h

/-- `isr` after its acknowledgement: the callback begins (R208). -/
def isrBody (P : Params) (h : HostState) : HostResult :=
  match h.handler with
  | none => .refuse .handlerUnset
  | some .tick =>
    match tickOp h with
    | .refuse r => .refuse r
    | .ran h' words cont => .ok { h' with isrQueue := words.map plainTxn ++ cancelTxns cont }
  | some (.hostFn id memory) => runHostFn P id memory none h

/-- A transaction of the callback has completed with this response: a host function goes on; `tick` does nothing after its
one transaction. -/
def resumeBody (P : Params) (resp : Option Response) (h : HostState) : HostResult :=
  match h.handler with
  | none => .refuse .handlerUnset
  | some .tick => .ok h
  | some (.hostFn id memory) => runHostFn P id memory resp h

/-- The host at the end of the cycle of a transaction of its own. -/
def afterTxn (P : Params) (a : AfterTxn) (resp : Option Response) (h : HostState) : HostResult :=
  match a with
  | .nothing => .ok h
  | .storeConfig c => .ok { h with cfg := some c }
  | .armChecks periodMs callback => armChecks P periodMs callback resp h
  | .storeHandler callback => .ok { h with handler := some callback }
  | .runCallback => isrBody P h
  | .resumeCallback => resumeBody P resp h
  | .forgetHandler => .ok { h with handler := none }

end Machine
end Sys2Proof
end

