-- ==== Sys2Proof/Machine/Contexts.lean ====
section
/-! DEFINITION. The two host contexts: what the host does in a cycle, in the order `isr` in service, a requested `isr`,
main (00_scope.md R5, 45_tick_scheduler.md R208, 70_reset_and_hazards.md R263). -/

namespace Sys2Proof
namespace Machine

open Config (Params)

/-- What the host does in this cycle: present no transaction, present one, or reach a call without meaning (R5, R11). The
state given is the one the cycle then runs on. -/
inductive HostMove where
  | idle (s : State)
  | present (t : PendingTxn) (s : State)
  | refuse (r : Refusal)
  deriving DecidableEq, Repr

/-- The count of draws after a gap was looked at: a gap not drawn yet takes one draw (log 5). -/
def drawsAfter (gap : Option Nat) (draws : Nat) : Nat := if gap.isSome then draws else draws + 1

/-- The operation at `hpc` begins (R90, R263). -/
def beginOp (P : Params) (op : HostOp) (h : HostState) : Begun :=
  match op with
  | .stdioInit => .done h
  | .configure pin frequencyHz => configureOp P pin frequencyHz h
  | .setPulse p => setPulseOp p h
  | .wait ms => .start (.waiting (cyclesOfMs P ms))
  | .initServo => .done { h with servo := some Servo.initial }
  | .arm periodMs callback => armOp periodMs callback
  | .idleLoop cadenceMs => .start (.waiting (cyclesOfMs P cadenceMs))

/-- The operation at `hpc` has completed: `hpc <- hpc + 1`; the idle loop begins again (R124 a, R213). -/
def completeOp (P : Params) (h : HostState) : HostState :=
  match P.program[h.hpc]? with
  | some (.idleLoop _) => { h with phase := .ready }
  | _ => { h with hpc := h.hpc + 1, phase := .ready }

/-- Main's next transaction: presented when the drawn gap `L_TXN` has passed (R8, R90; log 7). -/
def mainTxn (P : Params) (t : PendingTxn) (queue : List PendingTxn) (s : State) : HostMove :=
  let gap := s.host.mainGap.getD (P.lTxn s.draws)
  let draws := drawsAfter s.host.mainGap s.draws
  if gap = 0 then
    .present t { s with host := { s.host with phase := .txns queue, mainGap := none }, draws := draws }
  else
    .idle { s with host := { s.host with mainGap := some (gap - 1) }, draws := draws }

/-- The main context in one cycle. Operations and waits that take no cycle are passed in it (log 8); `fuel` bounds how
many. -/
def mainMove (P : Params) : Nat → State → HostMove
  | 0, s => .idle s
  | fuel + 1, s =>
    match s.host.phase with
    | .txns (t :: queue) => mainTxn P t queue s
    | .txns [] => mainMove P fuel { s with host := completeOp P s.host }
    | .waiting 0 => mainMove P fuel { s with host := completeOp P s.host }
    | .waiting (_ + 1) => .idle s
    | .ready =>
      match P.program[s.host.hpc]? with
      | none => .idle s
      | some op =>
        match beginOp P op s.host with
        | .refuse r => .refuse r
        | .fatal e => .idle { s with host := s.host.raiseFatal e }
        | .start p => mainMove P fuel { s with host := { s.host with phase := p } }
        | .done h => mainMove P fuel { s with host := completeOp P h }

/-- Enough for every operation of the program to pass in one cycle. -/
def mainFuel (P : Params) : Nat := 2 * P.program.length + 2

/-- The handler in service, in one cycle: its next transaction when its gap has passed, else none (R208, R90). -/
def isrMove (P : Params) (s : State) : HostMove :=
  match s.host.isrQueue with
  | [] => .idle s
  | t :: queue =>
    let gap := s.host.isrGap.getD (P.lTxn s.draws)
    let draws := drawsAfter s.host.isrGap s.draws
    if gap = 0 then
      .present t { s with host := { s.host with isrQueue := queue, isrGap := none }, draws := draws }
    else
      .idle { s with host := { s.host with isrGap := some (gap - 1) }, draws := draws }

/-- `isr` starts: entry, and the acknowledgement in the same cycle (R208, R234). With no callback or with `servo` unset it has
no meaning (V12). -/
def startIsr (P : Params) (s : State) : HostMove :=
  match s.host.handler, s.host.servo with
  | none, _ => .refuse .handlerUnset
  | some _, none => .refuse .servoUnset
  | some _, some _ =>
    .present { word := memWrite .tmrIntr 1, after := .runCallback }
      { s with host := s.host.enterIsr (P.tCb s.draws), draws := s.draws + 1 }

/-- `irq` is 1 and no handler is in service: the handler starts when the drawn latency `L_IRQ` has passed; until then
main runs (R208, R231 g; log 17). -/
def requestMove (P : Params) (s : State) : HostMove :=
  let gap := s.host.irqGap.getD (P.lIrq s.draws)
  let draws := drawsAfter s.host.irqGap s.draws
  if gap = 0 then startIsr P { s with draws := draws }
  else mainMove P (mainFuel P) { s with host := { s.host with irqGap := some (gap - 1) }, draws := draws }

/-- What the host does in a cycle: nothing when halted (R232); the handler in service and nothing else (R208, R209); a
requested handler, or main. -/
def hostMove (P : Params) (s : State) : HostMove :=
  if s.host.halted then .idle s
  else if s.host.inService then isrMove P s
  else if s.hw.irq then requestMove P s
  else mainMove P (mainFuel P) { s with host := { s.host with irqGap := none } }

/-- One cycle of a wait of the main context has passed; the handler may run inside it (R212; log 10). -/
def Phase.pass : Phase → Phase
  | .waiting n => .waiting (n - 1)
  | p => p

/-- The handler in service ends when its transactions are presented and its duration has passed (R208, R236; log 6). -/
def HostState.passIsr (h : HostState) : HostState :=
  if h.inService then
    if h.isrQueue = [] ∧ h.isrLeft ≤ 1 then h.leaveIsr else { h with isrLeft := h.isrLeft - 1 }
  else h

/-- The end of a cycle for the host: main's operation completes with its last transaction, waits count down, the handler
ends when it is through. A halted host does nothing (R232). -/
def HostState.endCycle (P : Params) (h : HostState) : HostState :=
  if h.halted then h
  else
    let h1 := if h.phase = .txns [] then completeOp P h else { h with phase := h.phase.pass }
    h1.passIsr

/-- The end of a cycle in which the host presented a transaction: what follows it, then the end of the cycle. A host that
an error stopped goes no further (R229). -/
def finishTxn (P : Params) (a : AfterTxn) (s : State) : StepOutcome :=
  if s.host.halted then .next s
  else
    match afterTxn P a s.resp s.host with
    | .refuse r => .refused r
    | .ok h => .next { s with host := h.endCycle P }

/-- A cycle in which the host presents nothing. -/
def hostIdleCycle (P : Params) (s : State) : State :=
  { s.idleCycle with host := s.host.endCycle P }

end Machine
end Sys2Proof
end

