-- ==== Sys2Proof/Machine/PwmRegs.lean ====
section
/-! DEFINITION. The ten transactions on the PWM unit's registers (40_clock_step_and_bus.md R103 to R112). -/

namespace Sys2Proof
namespace Machine

/-- `RD.PWM_CSR` (R103). -/
def execRdPwmCsr (s : State) : StepOutcome := .next (s.readCycle .pwmCsr)

/-- `WR.PWM_CSR` (R104): `PWM_EN` takes `wdata[0]`. -/
def execWrPwmCsr (wdata : Word) (s : State) : StepOutcome :=
  .next (s.writeCycle { pwmEn := some (fieldEn wdata) })

/-- `RD.PWM_DIV` (R105). -/
def execRdPwmDiv (s : State) : StepOutcome := .next (s.readCycle .pwmDiv)

/-- `WR.PWM_DIV` (R106): locked while the slice is enabled; the whole write is ignored when `INT` is 0. -/
def execWrPwmDiv (wdata : Word) (s : State) : StepOutcome :=
  if s.hw.pwmEn = false ∧ fieldInt wdata ≠ 0 then
    .next (s.writeCycle { divInt := some (fieldInt wdata), divFrac := some (fieldFrac wdata) })
  else
    .next (s.writeCycle {})

/-- `RD.PWM_CTR` (R107). -/
def execRdPwmCtr (s : State) : StepOutcome := .next (s.readCycle .pwmCtr)

/-- `WR.PWM_CTR` (R108): legal, the operand is ignored and nothing is written. -/
def execWrPwmCtr (_wdata : Word) (s : State) : StepOutcome := .next (s.writeCycle {})

/-- `RD.PWM_CC` (R109): the level last written, not the one in effect. -/
def execRdPwmCc (s : State) : StepOutcome := .next (s.readCycle .pwmCc)

/-- `WR.PWM_CC` (R110): accepted at any time. -/
def execWrPwmCc (wdata : Word) (s : State) : StepOutcome :=
  .next (s.writeCycle { cc := some (fieldLevel wdata) })

/-- `RD.PWM_TOP` (R111). -/
def execRdPwmTop (s : State) : StepOutcome := .next (s.readCycle .pwmTop)

/-- `WR.PWM_TOP` (R112): locked while the slice is enabled. -/
def execWrPwmTop (wdata : Word) (s : State) : StepOutcome :=
  if s.hw.pwmEn = false then .next (s.writeCycle { top := some (fieldWrap wdata) })
  else .next (s.writeCycle {})

end Machine
end Sys2Proof
end

