-- ==== Sys2Proof/Machine/TimerRegs.lean ====
section
/-! DEFINITION. The eight transactions on the timer unit's registers (40_clock_step_and_bus.md R113 to R120). -/

namespace Sys2Proof
namespace Machine

/-- `RD.TMR_CSR` (R113). -/
def execRdTmrCsr (s : State) : StepOutcome := .next (s.readCycle .tmrCsr)

/-- `WR.TMR_CSR` (R114): `TMR_EN` takes `wdata[0]`, `TMR_IE` takes `wdata[1]`; the flags are not touched. -/
def execWrTmrCsr (wdata : Word) (s : State) : StepOutcome :=
  .next (s.writeCycle { tmrEn := some (fieldEn wdata), tmrIe := some (fieldIe wdata) })

/-- `RD.TMR_CNT` (R115). -/
def execRdTmrCnt (s : State) : StepOutcome := .next (s.readCycle .tmrCnt)

/-- `WR.TMR_CNT` (R116): legal, the operand is ignored and nothing is written. -/
def execWrTmrCnt (_wdata : Word) (s : State) : StepOutcome := .next (s.writeCycle {})

/-- `RD.TMR_MATCH` (R117). -/
def execRdTmrMatch (s : State) : StepOutcome := .next (s.readCycle .tmrMatch)

/-- `WR.TMR_MATCH` (R118): locked while the timer is enabled. -/
def execWrTmrMatch (wdata : Word) (s : State) : StepOutcome :=
  if s.hw.tmrEn = false then .next (s.writeCycle { tmatch := some wdata })
  else .next (s.writeCycle {})

/-- `RD.TMR_INTR` (R119): reading clears nothing. -/
def execRdTmrIntr (s : State) : StepOutcome := .next (s.readCycle .tmrIntr)

/-- `WR.TMR_INTR` (R120): the bits written as 1 clear, merged with the cycle's match by `FlagNext`. -/
def execWrTmrIntr (wdata : Word) (s : State) : StepOutcome :=
  .next (s.writeCycle { clrIp := fieldIpClr wdata, clrOvr := fieldOvrClr wdata })

end Machine
end Sys2Proof
end

