-- ==== Sys2Proof/Machine/Dispatch.lean ====
section
/-! DEFINITION. One arm per transaction of the opcode table. -/

namespace Sys2Proof.Machine

def exec (i : Instr) (s : State) : Host.Outcome State Fault Refusal :=
  match i with
  | .rdPwmCsr => Sys2Proof.Machine.execRdPwmCsr s
  | .wrPwmCsr wdata => Sys2Proof.Machine.execWrPwmCsr wdata s
  | .rdPwmDiv => Sys2Proof.Machine.execRdPwmDiv s
  | .wrPwmDiv wdata => Sys2Proof.Machine.execWrPwmDiv wdata s
  | .rdPwmCtr => Sys2Proof.Machine.execRdPwmCtr s
  | .wrPwmCtr wdata => Sys2Proof.Machine.execWrPwmCtr wdata s
  | .rdPwmCc => Sys2Proof.Machine.execRdPwmCc s
  | .wrPwmCc wdata => Sys2Proof.Machine.execWrPwmCc wdata s
  | .rdPwmTop => Sys2Proof.Machine.execRdPwmTop s
  | .wrPwmTop wdata => Sys2Proof.Machine.execWrPwmTop wdata s
  | .rdTmrCsr => Sys2Proof.Machine.execRdTmrCsr s
  | .wrTmrCsr wdata => Sys2Proof.Machine.execWrTmrCsr wdata s
  | .rdTmrCnt => Sys2Proof.Machine.execRdTmrCnt s
  | .wrTmrCnt wdata => Sys2Proof.Machine.execWrTmrCnt wdata s
  | .rdTmrMatch => Sys2Proof.Machine.execRdTmrMatch s
  | .wrTmrMatch wdata => Sys2Proof.Machine.execWrTmrMatch wdata s
  | .rdTmrIntr => Sys2Proof.Machine.execRdTmrIntr s
  | .wrTmrIntr wdata => Sys2Proof.Machine.execWrTmrIntr wdata s

end Sys2Proof.Machine
end

