-- ==== Sys2Proof/Machine/Step.lean ====
section
/-! DEFINITION. The step: one rising edge of `clk_sys` for the whole system (00_scope.md R5, 40_clock_step_and_bus.md
R100). -/

namespace Sys2Proof
namespace Machine

open Config (Params)

/-- A transaction is presented: its row's meaning, or the illegal transaction of R121. -/
def present (w : BusWord) (s : State) : StepOutcome :=
  match decodeWord w with
  | .ok i => exec i s
  | .reject _ => .next (s.illegalCycle (addrOf w) (weOf w))

/-- A cycle in which an outside master drives the ports (R37, R260; logs 1, 2, 4). -/
def portCycle (p : PortInput) (s : State) : StepOutcome :=
  if p.rst then .next s.systemReset
  else
    match p.bus with
    | some w => present w s
    | none => .next s.idleCycle

/-- What a transaction's cycle is followed by in the host. -/
def andFinish (P : Params) (a : AfterTxn) (o : StepOutcome) : StepOutcome :=
  match o with
  | .next s => finishTxn P a s
  | .fault f => .fault f
  | .refused r => .refused r

/-- A cycle in which the host program drives the bus (R5). -/
def hostCycle (P : Params) (s : State) : StepOutcome :=
  match hostMove P s with
  | .refuse r => .refused r
  | .idle s' => .next (hostIdleCycle P s')
  | .present t s' => andFinish P t.after (present t.word s')

/-- One step, for any value of the open parameters: the outside's ports where it drives them in this cycle, else the host
program. -/
def stepWith (P : Params) (s : State) : StepOutcome :=
  match s.inputs with
  | p :: rest => portCycle p { s with inputs := rest }
  | [] => hostCycle P s

/-- One step of this machine. -/
def step (s : State) : Host.Outcome State Fault Refusal := stepWith Config.params s

/-- The transaction that the ports carry in the coming cycle is the one whose bits are `w` (log 1). Where the bits do not
fit the 41 bits of R80 the ports carry none. -/
def State.withFetchWord (s : State) (nbits w : Nat) : State :=
  { s with inputs := { rst := false, bus := tableBusWord nbits w } :: s.inputs.tail }

/-- A transaction program (R89) is loaded: the outside drives it from the coming cycle on (log 1). -/
def State.load (s : State) (p : List Item) : State :=
  { s with inputs := (assemble p).map fun b => { rst := false, bus := b } }

end Machine
end Sys2Proof
end

