-- ==== Sys2Proof/Safety.lean ====
section
/-! DEFINITION. What the claims speak of: the invariants of the block (10_state.md R44), of the host's records, and of the
source's boot program; the bus traffic that leaves a unit enabled; and runs driven at the ports. -/

namespace Sys2Proof
namespace Machine

open Config (Params)

/-! ### Invariants -/

/-- R44 (a) to (d): the divider is at least 1, `ACC < DIV16`, and an enabled counter is at most its bound. -/
abbrev Pwmt.Inv (h : Pwmt) : Prop :=
  1 ≤ h.divInt.toNat ∧ h.acc.toNat < h.div16 ∧
    (h.pwmEn = true → h.ctr.toNat ≤ h.top.toNat) ∧ (h.tmrEn = true → h.tcnt.toNat ≤ h.tmatch.toNat)

/-- R197 (a): `PULSE_MIN <= target_pulse <= PULSE_MAX`. -/
abbrev Servo.InBounds (sv : Servo) : Prop :=
  Config.pulseMin ≤ sv.targetPulse ∧ sv.targetPulse ≤ Config.pulseMax

/-- R41, R171, R172: a stored configuration has a divider of R8's range and `period_counts = wrap + 1` in 1..65536. -/
abbrev PwmConfig.Sound (c : PwmConfig) : Prop :=
  16 ≤ c.div16 ∧ c.div16 ≤ 4095 ∧ c.periodCounts = c.wrap + 1 ∧ c.periodCounts ≤ 65536

/-- The transactions main is still going to present. -/
def Phase.queue : Phase → List PendingTxn
  | .txns q => q
  | .ready => []
  | .waiting _ => []

/-- What `AfterTxn` may stand behind a transaction of the main context: a sound configuration to store, and never the
callback, which only `isr` runs (R208). -/
def AfterTxn.mainOk : AfterTxn → Prop
  | .storeConfig c => c.Sound
  | .runCallback => False
  | .resumeCallback => False
  | .nothing => True
  | .armChecks _ _ => True
  | .storeHandler _ => True
  | .forgetHandler => True

/-- What `AfterTxn` may stand behind a transaction of the handler: nothing, a callback that goes on, or forgetting the
callback (R208). -/
def AfterTxn.isrOk : AfterTxn → Prop
  | .nothing => True
  | .forgetHandler => True
  | .resumeCallback => True
  | .storeConfig _ => False
  | .armChecks _ _ => False
  | .storeHandler _ => False
  | .runCallback => False

/-- The invariant of the host's records and of the model's progress fields (log 16). -/
structure HostState.Inv (h : HostState) : Prop where
  servo_bounds : ∀ sv, h.servo = some sv → sv.InBounds
  cfg_sound : ∀ c, h.cfg = some c → c.Sound
  main_open : h.halted = false → h.phase ≠ .txns []
  main_after : ∀ t ∈ h.phase.queue, t.after.mainOk
  isr_after : ∀ t ∈ h.isrQueue, t.after.isrOk
  out_of_service : h.inService = false → h.isrQueue = [] ∧ h.isrGap = none ∧ h.isrLeft = 0
  halted_recorded : h.halted = true → h.error.isSome = true

/-- The invariant that every step keeps. -/
structure State.Inv (s : State) : Prop where
  hw : s.hw.Inv
  host : s.host.Inv

/-- What the bus may write to a block in this state: the locks of R106, R112, R118, and never a divider below 1. -/
structure BusWrite.Allowed (h : Pwmt) (w : BusWrite) : Prop where
  div_locked : h.pwmEn = true → w.divInt = none ∧ w.divFrac = none
  top_locked : h.pwmEn = true → w.top = none
  match_locked : h.tmrEn = true → w.tmatch = none
  div_positive : ∀ d, w.divInt = some d → d ≠ 0

/-! ### The source's boot program -/

/-- The timer unit is as reset leaves it: disabled, nothing pending (R45, R264). -/
abbrev Pwmt.TimerIdle (h : Pwmt) : Prop := h.tmrEn = false ∧ h.ip = false

/-- No handler has ever run (R264). -/
abbrev HostState.NoService (h : HostState) : Prop := h.inService = false ∧ h.isrQueue = []

/-- Items 0 and 1: nothing is set up; `configure` has presented some of its transactions (R170, R173). -/
structure Configuring (P : Params) (pin : Nat) (s : State) : Prop where
  unset : s.host.cfg = none ∧ s.host.servo = none ∧ s.host.handler = none
  work : (s.host.hpc = 0 ∨ s.host.hpc = 1) ∧ s.host.phase = .ready ∨
    s.host.hpc = 1 ∧ (0 ≤ wrapOf P ∧ wrapOf P ≤ 65535) ∧
      ∃ q, s.host.phase = .txns q ∧ q ≠ [] ∧ q <:+ configureTxns P pin
  timer : s.hw.TimerIdle
  service : s.host.NoService

/-- The pulse that an item of the demo sets: PULSE_MAX, PULSE_MID, PULSE_MIN at items 2, 4 and 6 (R263). -/
def demoPulse : Nat → Option Int
  | 2 => some Config.pulseMax
  | 4 => some Config.pulseMid
  | 6 => some Config.pulseMin
  | _ => none

/-- Items 2 to 7: the demo levels in their order and the holds; the configuration is stored (R263). -/
structure Demonstrating (P : Params) (pin : Nat) (s : State) : Prop where
  set_up : s.host.cfg = some (configOf P pin) ∧ s.host.servo = none ∧ s.host.handler = none
  fits : 0 ≤ wrapOf P ∧ wrapOf P ≤ 65535
  work : (∃ p, demoPulse s.host.hpc = some p ∧
      (s.host.phase = .ready ∨ s.host.phase = .txns [plainTxn (setPulseWord (configOf P pin) p)])) ∨
    (s.host.hpc = 3 ∨ s.host.hpc = 5 ∨ s.host.hpc = 7) ∧
      (s.host.phase = .ready ∨ ∃ n, s.host.phase = .waiting n)
  timer : s.hw.TimerIdle
  service : s.host.NoService

/-- Item 9: Servo State has its initial value (R191); `arm` has presented some of its transactions, and the callback is stored before
the enable (R205, R264). -/
structure Arming (P : Params) (pin : Nat) (s : State) : Prop where
  set_up : s.host.cfg = some (configOf P pin) ∧ s.host.servo = some Servo.initial
  fits : 0 ≤ wrapOf P ∧ wrapOf P ≤ 65535
  at_item : s.host.hpc = 9
  work : s.host.phase = .txns [{ word := memRead .tmrCsr, after := .armChecks Config.stepDelay .tick }] ∨
    ∃ q, s.host.phase = .txns q ∧ q ≠ [] ∧ q <:+ armTxns (cyclesOfMs P Config.stepDelay) .tick ∧
      (q = [plainTxn (memWrite .tmrCsr 3)] → s.host.handler = some .tick)
  timer : s.hw.TimerIdle
  service : s.host.NoService

/-- Item 10: main idles, and `isr` presents every later transaction (R213). -/
structure Sweeping (P : Params) (pin : Nat) (s : State) : Prop where
  set_up : s.host.cfg = some (configOf P pin) ∧ (∃ sv, s.host.servo = some sv ∧ sv.InBounds) ∧
    s.host.handler = some .tick
  at_item : s.host.hpc = 10
  work : s.host.phase = .ready ∨ ∃ n, s.host.phase = .waiting n
  service : ∀ t ∈ s.host.isrQueue, ∃ p, t = plainTxn (setPulseWord (configOf P pin) p)

/-- How far the source's program is (R263, R264). -/
def BootStage (P : Params) (pin : Nat) (s : State) : Prop :=
  Configuring P pin s ∨ Demonstrating P pin s ∨ Arming P pin s ∨ Sweeping P pin s

/-- The invariant of the source's own program: a boot stage with no error, or stopped by `ConfigurationError` before any
transaction (R226, R232, R233). -/
def BootInv (P : Params) (pin : Nat) (s : State) : Prop :=
  s.inputs = [] ∧
    ((s.host.halted = false ∧ s.host.error = none ∧ BootStage P pin s) ∨
      (s.host.halted = true ∧ ∃ e, s.host.error = some e ∧ e.kind = .configurationError))

/-! ### Runs driven at the ports -/

/-- The outside drives these cycles next, without reset (R37). -/
def State.withBus (s : State) (l : List (Option BusWord)) : State :=
  { s with inputs := l.map fun b => { rst := false, bus := b } }

/-- The port `rst` is 1 in the coming cycle (R260). -/
def State.resetNow (s : State) : Bool :=
  match s.inputs with
  | p :: _ => p.rst
  | [] => false

/-- The coming cycle is a match of the timer (R151). -/
def Pwmt.matchNow (h : Pwmt) : Bool := h.tmrEn && decide (h.tcnt = h.tmatch)

/-- The bus traffic of a cycle does not disable the slice: it is no `WR.PWM_CSR` with `EN = 0` (R104). -/
def keepsSlice (b : Option BusWord) : Bool :=
  match b with
  | none => true
  | some w =>
    match decodeWord w with
    | .ok (.wrPwmCsr v) => fieldEn v
    | _ => true

/-- The bus traffic of a cycle does not disable the timer: it is no `WR.TMR_CSR` with `EN = 0` (R114). -/
def keepsTimer (b : Option BusWord) : Bool :=
  match b with
  | none => true
  | some w =>
    match decodeWord w with
    | .ok (.wrTmrCsr v) => fieldEn v
    | _ => true

/-- The state after a cycle with this bus traffic; the cycle always has one (`Clk` is total, R100). -/
def portStep (b : Option BusWord) (s : State) : State :=
  match portCycle { rst := false, bus := b } s with
  | .next t => t
  | .fault _ => s
  | .refused _ => s

/-- In how many of the cycles with this bus traffic `pwm_out` is 1 (R136). -/
def highCycles : List (Option BusWord) → State → Nat
  | [], _ => 0
  | b :: l, s => (if s.hw.pwmOut then 1 else 0) + highCycles l (portStep b s)

/-! ### Safe runs -/

/-- A faulted run: an error of R225 has been recorded (R229, R232). Such a run is no normal end. -/
def State.faulted (s : State) : Bool := s.host.error.isSome

/-- The states that runs of the machine reach from reset, with whatever the outside drives at the ports. -/
inductive Reachable : State → Prop where
  | reset (inputs : List PortInput) : Reachable { State.reset with inputs := inputs }
  | step (s t : State) (from_reset : Reachable s) (edge : Machine.step s = .next t) : Reachable t

end Machine
end Sys2Proof
end

