-- ==== Sys2Proof/Certificates/Slice0/Obligations.lean ====
section
/-! DEFINITION. The statements for the provers. Each docstring names the rule it formalises; the ids and texts stand in
OBLIGATIONS.json. -/

open Sys2Proof Sys2Proof.Machine
open Sys2Proof.Config (Params)

/-! ### Reset -/

/-- R45: every element of the table after reset, the derived outputs and the read values. -/
def Obligations.ResetValuesAreTheTable : Prop :=
  let h := State.reset.hw
  let o := State.reset.host
  (h.pwmEn = false ∧ h.divInt = 1 ∧ h.divFrac = 0 ∧ h.top = 0xFFFF ∧ h.cc = 0 ∧ h.ctr = 0 ∧ h.acc = 0 ∧ h.ccAct = 0) ∧
    (h.tmrEn = false ∧ h.tmrIe = false ∧ h.tcnt = 0 ∧ h.tmatch = 0xFFFFFFFF ∧ h.ip = false ∧ h.ovr = false) ∧
    (h.pwmOut = false ∧ h.irq = false) ∧
    (o.cfg = none ∧ o.servo = none ∧ o.handler = none ∧ o.inService = false ∧ o.halted = false ∧ o.hpc = 0) ∧
    (h.readReg .pwmCsr = 0 ∧ h.readReg .pwmDiv = 0x10 ∧ h.readReg .pwmCtr = 0 ∧ h.readReg .pwmCc = 0 ∧
      h.readReg .pwmTop = 0xFFFF ∧ h.readReg .tmrCsr = 0 ∧ h.readReg .tmrCnt = 0 ∧
      h.readReg .tmrMatch = 0xFFFFFFFF ∧ h.readReg .tmrIntr = 0)

/-- R260: with `rst` at 1, whatever the state and whatever transaction is presented, the next state is the reset state
of block and host; the transaction gets no response. -/
def Obligations.ResetInputResetsBlockAndHost : Prop :=
  ∀ s : State, s.resetNow = true →
    ∃ t, Sys2Proof.Machine.step s = .next t ∧ t.hw = State.reset.hw ∧ t.resp = none ∧ t.host.cfg = none ∧
      t.host.servo = none ∧ t.host.handler = none ∧ t.host.inService = false ∧ t.host.halted = false ∧ t.host.hpc = 0

/-! ### Encoding -/

/-- R80, R84: words written out from the table decode to the transactions they stand for (95_test_vectors.md). -/
def Obligations.TableWordsDecode : Prop :=
  decodeWord 0x00000000000 = .ok .rdPwmCsr ∧ decodeWord 0x10000000001 = .ok (.wrPwmCsr 1) ∧
    decodeWord 0x10400000400 = .ok (.wrPwmDiv 0x400) ∧ decodeWord 0x00800000000 = .ok .rdPwmCtr ∧
    decodeWord 0x10C00000B37 = .ok (.wrPwmCc 2871) ∧ decodeWord 0x11000009895 = .ok (.wrPwmTop 39061) ∧
    decodeWord 0x11400000003 = .ok (.wrTmrCsr 3) ∧ decodeWord 0x01800000000 = .ok .rdTmrCnt ∧
    decodeWord 0x11C001312CF = .ok (.wrTmrMatch 1249999) ∧ decodeWord 0x12000000001 = .ok (.wrTmrIntr 1) ∧
    decodeWord 0x02400000000 = .reject (.unmapped 0x24 false) ∧ decodeWord 0x10200000005 = .reject (.misaligned 0x02 true)

/-- R80, R84: decoding an encoded transaction gives it back, from its word and from its stored bytes (R61; that they are
six with the top seven bits 0 is the model's choice, log 13). -/
def Obligations.DecodeOfEncodeIsIdentity : Prop :=
  ∀ i : Instr, i.wf = true → decodeWord (encode i) = .ok i ∧ decodeBytes (encodeBytes i) = .ok i

/-- R80, R84: a word that decodes is its transaction's row in `WE` and `ADDR`, and for a write the whole word. -/
def Obligations.DecodedWordHasItsRow : Prop :=
  ∀ (w : BusWord) (i : Instr), decodeWord w = .ok i →
    w &&& opcodeMask = i.opcode ∧ (i.wdata.isSome = true → encode i = w) ∧
      (i.wdata = none → encode i = w &&& opcodeMask)

/-- R66, R86: a transaction is legal exactly at the nine offsets, illegal exactly where `ADDR[1:0] != 0` or
`ADDR >= 0x24`. -/
def Obligations.LegalAddressesAreTheNineOffsets : Prop :=
  ∀ w : BusWord,
    ((∃ i, decodeWord w = .ok i) ↔ (addrOf w).toNat ∈ [0x00, 0x04, 0x08, 0x0C, 0x10, 0x14, 0x18, 0x1C, 0x20]) ∧
      ((∃ r, decodeWord w = .reject r) ↔ ((addrOf w).toNat % 4 ≠ 0 ∨ 0x24 ≤ (addrOf w).toNat))

/-! ### The step -/

/-- R5, R100: a transaction on the ports that decodes is run as its row's meaning; the cycle's input is used up (the
list of the outside's cycles is the model's choice, log 1). -/
def Obligations.PresentedTransactionRunsItsMeaning : Prop :=
  ∀ (s : State) (w : BusWord) (rest : List PortInput) (i : Instr),
    s.inputs = { rst := false, bus := some w } :: rest → decodeWord w = .ok i →
      Sys2Proof.Machine.step s = exec i { s with inputs := rest }

/-- R5, R100: a transaction that the host program presents is run as its row's meaning; what the host does after it
follows at the end of the cycle (the model's choice, log 18). -/
def Obligations.HostTransactionRunsItsMeaning : Prop :=
  ∀ (s s' : State) (x : PendingTxn) (i : Instr),
    s.inputs = [] → hostMove Config.params s = .present x s' → decodeWord x.word = .ok i →
      Sys2Proof.Machine.step s = andFinish Config.params x.after (exec i s')

/-- R121, R229: an illegal transaction, on the ports or of the host itself, changes no register beyond the hardware
part, answers `(0, 1)`, and stops the host with a recorded `BusError` (that an outside master's error stops the modelled
host is the model's choice, log 4; that an earlier error stays recorded, log 3). -/
def Obligations.IllegalTransactionIsBusError : Prop :=
  (∀ (s : State) (w : BusWord) (rest : List PortInput) (r : Reject),
    s.inputs = { rst := false, bus := some w } :: rest → decodeWord w = .reject r →
      Sys2Proof.Machine.step s =
        .next { s with
          inputs := rest
          hw := idleClk s.hw
          resp := some { rdata := 0, err := true }
          host := { s.host with
            halted := true
            error := some (s.host.error.getD (.busError (addrOf w) (weOf w))) } }) ∧
  ∀ (s s' : State) (x : PendingTxn) (r : Reject),
    s.inputs = [] → hostMove Config.params s = .present x s' → decodeWord x.word = .reject r →
      Sys2Proof.Machine.step s =
        .next { s' with
          hw := idleClk s'.hw
          resp := some { rdata := 0, err := true }
          host := { s'.host with
            halted := true
            error := some (s'.host.error.getD (.busError (addrOf x.word) (weOf x.word))) } }

/-- R232: a halted host presents nothing and starts no handler; the hardware keeps stepping. -/
def Obligations.HaltedHostLeavesHardwareRunning : Prop :=
  ∀ s : State, s.inputs = [] → s.host.halted = true →
    Sys2Proof.Machine.step s = .next { s with hw := idleClk s.hw, resp := none }

/-- R229: a recorded fault is never cleared, and the host stays stopped, except by reset (the first error stays, log 3).
-/
def Obligations.RecordedErrorIsNeverCleared : Prop :=
  ∀ (s t : State) (e : HostError), s.resetNow = false → s.host.error = some e →
    Sys2Proof.Machine.step s = .next t →
      t.host.error = some e ∧ (s.host.halted = true → t.host.halted = true)

/-- R11, R100, R102: every transaction completes in its cycle, in every state, with the response R102 gives. -/
def Obligations.EveryTransactionCompletes : Prop :=
  ∀ (i : Instr) (s : State), ∃ t, exec i s = .next t ∧ t.host = s.host ∧
    t.resp = some { rdata := if i.wdata.isSome then 0 else s.hw.readReg i.reg, err := false }

/-! ### Results of the transactions -/

/-- R103, R105, R107, R109, R111: the reads of the PWM unit answer the pre-state and change nothing beyond the hardware
part. -/
def Obligations.PwmReadsAnswerThePreState : Prop :=
  ∀ s : State,
    exec .rdPwmCsr s = .next { s with
      hw := idleClk s.hw, resp := some { rdata := if s.hw.pwmEn then 1 else 0, err := false } } ∧
    exec .rdPwmDiv s = .next { s with
      hw := idleClk s.hw, resp := some { rdata := BitVec.ofNat 32 s.hw.div16, err := false } } ∧
    exec .rdPwmCtr s = .next { s with
      hw := idleClk s.hw, resp := some { rdata := BitVec.ofNat 32 s.hw.ctr.toNat, err := false } } ∧
    exec .rdPwmCc s = .next { s with
      hw := idleClk s.hw, resp := some { rdata := BitVec.ofNat 32 s.hw.cc.toNat, err := false } } ∧
    exec .rdPwmTop s = .next { s with
      hw := idleClk s.hw, resp := some { rdata := BitVec.ofNat 32 s.hw.top.toNat, err := false } }

/-- R113, R115, R117, R119: the reads of the timer unit answer the pre-state and clear nothing. -/
def Obligations.TimerReadsAnswerThePreState : Prop :=
  ∀ s : State,
    exec .rdTmrCsr s = .next { s with
      hw := idleClk s.hw
      resp := some { rdata := (if s.hw.tmrIe then 2 else 0) + (if s.hw.tmrEn then 1 else 0), err := false } } ∧
    exec .rdTmrCnt s = .next { s with
      hw := idleClk s.hw, resp := some { rdata := s.hw.tcnt, err := false } } ∧
    exec .rdTmrMatch s = .next { s with
      hw := idleClk s.hw, resp := some { rdata := s.hw.tmatch, err := false } } ∧
    exec .rdTmrIntr s = .next { s with
      hw := idleClk s.hw
      resp := some { rdata := (if s.hw.ovr then 2 else 0) + (if s.hw.ip then 1 else 0), err := false } }

/-- R104: `WR.PWM_CSR` sets `PWM_EN` to bit 0 and nothing else beyond the hardware part. -/
def Obligations.WrPwmCsrSetsEnable : Prop :=
  ∀ (v : Word) (s : State), exec (.wrPwmCsr v) s = .next { s with
    hw := { idleClk s.hw with pwmEn := decide (v.toNat % 2 = 1) }
    resp := some { rdata := 0, err := false } }

/-- R106: `WR.PWM_DIV` takes both fields when the slice is disabled and `INT` is not 0, else nothing. -/
def Obligations.WrPwmDivIsLockedAndRefusesZero : Prop :=
  ∀ (v : Word) (s : State),
    (s.hw.pwmEn = false ∧ v.toNat / 16 % 256 ≠ 0 → exec (.wrPwmDiv v) s = .next { s with
      hw := { idleClk s.hw with divInt := BitVec.ofNat 8 (v.toNat / 16), divFrac := BitVec.ofNat 4 v.toNat }
      resp := some { rdata := 0, err := false } }) ∧
    (¬(s.hw.pwmEn = false ∧ v.toNat / 16 % 256 ≠ 0) → exec (.wrPwmDiv v) s = .next { s with
      hw := idleClk s.hw, resp := some { rdata := 0, err := false } })

/-- R110: `WR.PWM_CC` stores bits 16:0 in `CC` at any time and nothing else beyond the hardware part. -/
def Obligations.WrPwmCcStoresLevel : Prop :=
  ∀ (v : Word) (s : State), exec (.wrPwmCc v) s = .next { s with
    hw := { idleClk s.hw with cc := BitVec.ofNat 17 v.toNat }
    resp := some { rdata := 0, err := false } }

/-- R112: `WR.PWM_TOP` stores bits 15:0 when the slice is disabled, else nothing. -/
def Obligations.WrPwmTopIsLocked : Prop :=
  ∀ (v : Word) (s : State), exec (.wrPwmTop v) s = .next { s with
    hw := { idleClk s.hw with top := if s.hw.pwmEn then s.hw.top else BitVec.ofNat 16 v.toNat }
    resp := some { rdata := 0, err := false } }

/-- R108, R116: writes to the read-only counters have no effect beyond the hardware part. -/
def Obligations.ReadOnlyWritesDoNothing : Prop :=
  ∀ (v : Word) (s : State),
    exec (.wrPwmCtr v) s = .next { s with hw := idleClk s.hw, resp := some { rdata := 0, err := false } } ∧
    exec (.wrTmrCnt v) s = .next { s with hw := idleClk s.hw, resp := some { rdata := 0, err := false } }

/-- R114: `WR.TMR_CSR` sets `TMR_EN` and `TMR_IE`; the flags are what the hardware part makes them. -/
def Obligations.WrTmrCsrSetsEnables : Prop :=
  ∀ (v : Word) (s : State), exec (.wrTmrCsr v) s = .next { s with
    hw := { idleClk s.hw with tmrEn := decide (v.toNat % 2 = 1), tmrIe := decide (v.toNat / 2 % 2 = 1) }
    resp := some { rdata := 0, err := false } }

/-- R118: `WR.TMR_MATCH` stores the whole word when the timer is disabled, else nothing. -/
def Obligations.WrTmrMatchIsLocked : Prop :=
  ∀ (v : Word) (s : State), exec (.wrTmrMatch v) s = .next { s with
    hw := { idleClk s.hw with tmatch := if s.hw.tmrEn then s.hw.tmatch else v }
    resp := some { rdata := 0, err := false } }

/-- R120, R152: `WR.TMR_INTR` clears the flags written as 1; a match sets `IP` whatever is cleared, and sets `OVR` when
it finds `IP` set and not cleared. -/
def Obligations.WrTmrIntrClearsFlags : Prop :=
  ∀ (v : Word) (s : State), exec (.wrTmrIntr v) s = .next { s with
    hw := { idleClk s.hw with
      ip := s.hw.matchNow || (s.hw.ip && decide (v.toNat % 2 = 0))
      ovr := (s.hw.ovr && decide (v.toNat / 2 % 2 = 0)) ||
        (s.hw.matchNow && s.hw.ip && decide (v.toNat % 2 = 0)) }
    resp := some { rdata := 0, err := false } }

/-- R69, R280: an accepted write reads back in the next cycle. -/
def Obligations.WrittenValueReadsBackNextCycle : Prop :=
  ∀ (s : State) (v : Word),
    (∃ t u, exec (.wrPwmCsr v) s = .next t ∧ exec .rdPwmCsr t = .next u ∧
      u.resp = some { rdata := BitVec.ofNat 32 (v.toNat % 2), err := false }) ∧
    (s.hw.pwmEn = false → v.toNat / 16 % 256 ≠ 0 → ∃ t u, exec (.wrPwmDiv v) s = .next t ∧
      exec .rdPwmDiv t = .next u ∧ u.resp = some { rdata := BitVec.ofNat 32 (v.toNat % 2 ^ 12), err := false }) ∧
    (∃ t u, exec (.wrPwmCc v) s = .next t ∧ exec .rdPwmCc t = .next u ∧
      u.resp = some { rdata := BitVec.ofNat 32 (v.toNat % 2 ^ 17), err := false }) ∧
    (s.hw.pwmEn = false → ∃ t u, exec (.wrPwmTop v) s = .next t ∧ exec .rdPwmTop t = .next u ∧
      u.resp = some { rdata := BitVec.ofNat 32 (v.toNat % 2 ^ 16), err := false }) ∧
    (∃ t u, exec (.wrTmrCsr v) s = .next t ∧ exec .rdTmrCsr t = .next u ∧
      u.resp = some { rdata := BitVec.ofNat 32 (v.toNat % 4), err := false }) ∧
    (s.hw.tmrEn = false → ∃ t u, exec (.wrTmrMatch v) s = .next t ∧ exec .rdTmrMatch t = .next u ∧
      u.resp = some { rdata := v, err := false })

/-! ### What each cycle does to the block -/

/-- R101: the eight bus-written elements change only by their own write; a transaction leaves the host, the inputs and
the draws alone. -/
def Obligations.OnlyItsWriteChangesAnElement : Prop :=
  ∀ (i : Instr) (s t : State), exec i s = .next t →
    ((∀ v, i ≠ .wrPwmCsr v) → t.hw.pwmEn = s.hw.pwmEn) ∧
    ((∀ v, i ≠ .wrPwmDiv v) → t.hw.divInt = s.hw.divInt ∧ t.hw.divFrac = s.hw.divFrac) ∧
    ((∀ v, i ≠ .wrPwmTop v) → t.hw.top = s.hw.top) ∧
    ((∀ v, i ≠ .wrPwmCc v) → t.hw.cc = s.hw.cc) ∧
    ((∀ v, i ≠ .wrTmrCsr v) → t.hw.tmrEn = s.hw.tmrEn ∧ t.hw.tmrIe = s.hw.tmrIe) ∧
    ((∀ v, i ≠ .wrTmrMatch v) → t.hw.tmatch = s.hw.tmatch) ∧
    t.host = s.host ∧ t.inputs = s.inputs ∧ t.draws = s.draws

/-- R101: `CTR`, `ACC`, `CC_ACT` and `TCNT` are written by the hardware only: they come out the same whichever
transaction is presented, and as in an idle cycle. -/
def Obligations.HardwareElementsIgnoreTheBus : Prop :=
  ∀ (i : Instr) (s t : State), exec i s = .next t →
    t.hw.ctr = (idleClk s.hw).ctr ∧ t.hw.acc = (idleClk s.hw).acc ∧ t.hw.ccAct = (idleClk s.hw).ccAct ∧
      t.hw.tcnt = (idleClk s.hw).tcnt

/-- R130 to R134: what `PwmNext` gives in every cycle of a transaction, by cases, from a state in the invariant. -/
def Obligations.PwmUnitInEachCycle : Prop :=
  ∀ (i : Instr) (s t : State), s.hw.Inv → exec i s = .next t →
    (s.hw.pwmEn = false → t.hw.ctr = 0 ∧ t.hw.acc = 0 ∧ t.hw.ccAct = s.hw.cc) ∧
    (s.hw.pwmEn = true → s.hw.acc.toNat + 16 < s.hw.div16 →
      t.hw.ctr = s.hw.ctr ∧ t.hw.acc.toNat = s.hw.acc.toNat + 16 ∧ t.hw.ccAct = s.hw.ccAct) ∧
    (s.hw.pwmEn = true → s.hw.div16 ≤ s.hw.acc.toNat + 16 →
      t.hw.acc.toNat = s.hw.acc.toNat + 16 - s.hw.div16 ∧
      (s.hw.ctr = s.hw.top → t.hw.ctr = 0 ∧ t.hw.ccAct = s.hw.cc) ∧
      (s.hw.ctr ≠ s.hw.top → t.hw.ctr.toNat = s.hw.ctr.toNat + 1 ∧ t.hw.ccAct = s.hw.ccAct))

/-- R150, R153: what `TmrNext` gives for `TCNT` in every cycle of a transaction. -/
def Obligations.TimerUnitInEachCycle : Prop :=
  ∀ (i : Instr) (s t : State), exec i s = .next t →
    (s.hw.tmrEn = false → t.hw.tcnt = 0) ∧
    (s.hw.tmrEn = true → s.hw.tcnt = s.hw.tmatch → t.hw.tcnt = 0) ∧
    (s.hw.tmrEn = true → s.hw.tcnt ≠ s.hw.tmatch → t.hw.tcnt.toNat = (s.hw.tcnt.toNat + 1) % 2 ^ 32)

/-- R152: the flags after any transaction but `WR.TMR_INTR`: a match sets `IP`, and sets `OVR` when `IP` was set;
nothing else changes them. -/
def Obligations.FlagsWithoutAClear : Prop :=
  ∀ (i : Instr) (s t : State), (∀ v, i ≠ .wrTmrIntr v) → exec i s = .next t →
    t.hw.ip = (s.hw.ip || s.hw.matchNow) ∧ t.hw.ovr = (s.hw.ovr || (s.hw.matchNow && s.hw.ip))

/-- R101, R151, R157: in every step without reset a match sets `IP`, whatever is presented. -/
def Obligations.MatchIsNeverLost : Prop :=
  ∀ s t : State, s.resetNow = false → s.hw.matchNow = true → Sys2Proof.Machine.step s = .next t →
    t.hw.ip = true ∧ t.hw.tcnt = 0

/-- R33: `OVR` becomes set only by a match that finds `IP` set. -/
def Obligations.OverrunOnlyByAMergedMatch : Prop :=
  ∀ s t : State, Sys2Proof.Machine.step s = .next t → s.hw.ovr = false → t.hw.ovr = true →
    s.hw.matchNow = true ∧ s.hw.ip = true

/-- R133: in every step without reset of an enabled slice, `CC_ACT` takes the pre-state's `CC` in the cycle of a wrap
and keeps its value otherwise; of a disabled slice it takes `CC`. -/
def Obligations.LevelIsLatchedAtTheWrapOnly : Prop :=
  ∀ s t : State, s.resetNow = false → Sys2Proof.Machine.step s = .next t →
    t.hw.ccAct =
      if s.hw.pwmEn = false ∨ (s.hw.div16 ≤ s.hw.acc.toNat + 16 ∧ s.hw.ctr = s.hw.top) then s.hw.cc else s.hw.ccAct

/-- R44 (e), R118: between two consecutive enabled states the divider and `TOP` do not change, and `TMATCH` does not for
the timer; reset apart. -/
def Obligations.ConfigurationIsLockedWhileEnabled : Prop :=
  ∀ s t : State, Sys2Proof.Machine.step s = .next t →
    (s.hw.pwmEn = true → t.hw.pwmEn = true →
      t.hw.divInt = s.hw.divInt ∧ t.hw.divFrac = s.hw.divFrac ∧ t.hw.top = s.hw.top) ∧
    (s.hw.tmrEn = true → t.hw.tmrEn = true → t.hw.tmatch = s.hw.tmatch)

/-- R34, R135, R136: what `pwm_out` is; with `CC_ACT` at 0 it is 0, with `CC_ACT` above `TOP` and an enabled slice it is
1 throughout (R139), within the invariant. -/
def Obligations.OutputIsTheStrictCompare : Prop :=
  ∀ h : Pwmt,
    (h.pwmOut = true ↔ h.pwmEn = true ∧ h.ctr.toNat < h.ccAct.toNat) ∧
    (h.ccAct = 0 → h.pwmOut = false) ∧
    (h.Inv → h.pwmEn = true → h.top.toNat < h.ccAct.toNat → h.pwmOut = true)

/-- R35, R155: `irq` is `IP` and `TMR_IE`. -/
def Obligations.RequestIsPendingAndEnabled : Prop :=
  ∀ h : Pwmt, h.irq = true ↔ h.ip = true ∧ h.tmrIe = true

/-- R122: an idle cycle writes no bus-written element, and a disabled, settled block is at a fixed point. -/
def Obligations.IdleBlockIsAFixedPoint : Prop :=
  ∀ h : Pwmt, h.pwmEn = false → h.tmrEn = false → h.ctr = 0 → h.acc = 0 → h.tcnt = 0 → h.ccAct = h.cc → idleClk h = h

/-- R137: the enable of a disabled slice starts a frame with the level written before it. -/
def Obligations.EnableStartsAFrame : Prop :=
  ∀ (s : State) (v : Word), s.hw.pwmEn = false → v.toNat % 2 = 1 →
    ∃ t, exec (.wrPwmCsr v) s = .next t ∧ t.hw.pwmEn = true ∧ t.hw.ctr = 0 ∧ t.hw.acc = 0 ∧ t.hw.ccAct = s.hw.cc ∧
      (t.hw.pwmOut = true ↔ 0 < s.hw.cc.toNat)

/-- R157: a disable in the cycle of a match: the timer is off, `TCNT` is 0, and `IP` is set. -/
def Obligations.DisableRacingAMatchKeepsTheEvent : Prop :=
  ∀ (s : State) (v : Word), s.hw.matchNow = true → v.toNat % 2 = 0 →
    ∃ t, exec (.wrTmrCsr v) s = .next t ∧ t.hw.tmrEn = false ∧ t.hw.tcnt = 0 ∧ t.hw.ip = true

/-! ### Invariants and runs -/

/-- R44 at reset, with the host's part, which speaks of the model's own fields (log 16). -/
def Obligations.ResetMeetsTheInvariant : Prop := State.reset.Inv

/-- R44 (a) to (d), R197 (a), R41 and the host's progress (log 16): every step keeps the invariant, from every state
that has it. -/
def Obligations.EveryStepKeepsTheInvariant : Prop :=
  ∀ s t : State, s.Inv → Sys2Proof.Machine.step s = .next t → t.Inv

/-- R131, R138: while the slice stays enabled from `CTR = 0`, `ACC = 0`, after `n` cycles of any bus traffic
`(16 n) div DIV16` counter ticks have been performed (the traffic is driven at the ports, log 1). -/
def Obligations.PwmCounterClosedForm : Prop :=
  ∀ (s : State) (l : List (Option BusWord)),
    s.hw.Inv → s.hw.pwmEn = true → s.hw.ctr = 0 → s.hw.acc = 0 → (∀ b ∈ l, keepsSlice b = true) →
      ∃ t : State, Sys2Proof.core.run l.length (s.withBus l) = .next t ∧ t.hw.pwmEn = true ∧
        t.hw.ctr.toNat = (16 * l.length / s.hw.div16) % (s.hw.top.toNat + 1) ∧
        t.hw.acc.toNat = (16 * l.length) % s.hw.div16

/-- R154: while the timer stays enabled from `TCNT = 0`, after `n` cycles of any bus traffic `TCNT = n mod (TMATCH +
1)`, and the state right after each match has `IP` set, whatever was presented (at the ports, log 1). -/
def Obligations.TimerPeriodIsExact : Prop :=
  ∀ (s : State) (l : List (Option BusWord)),
    s.hw.tmrEn = true → s.hw.tcnt = 0 → (∀ b ∈ l, keepsTimer b = true) →
      ∃ t : State, Sys2Proof.core.run l.length (s.withBus l) = .next t ∧ t.hw.tmrEn = true ∧
        t.hw.tmatch = s.hw.tmatch ∧ t.hw.tcnt.toNat = l.length % (s.hw.tmatch.toNat + 1) ∧
        (0 < l.length → l.length % (s.hw.tmatch.toNat + 1) = 0 → t.hw.ip = true)

/-- R136: with an integer divider `D` and `P = TOP + 1`, of the `P * D` cycles of a frame with level `L` exactly
`min(L, P) * D` are high, whatever bus traffic leaves the slice enabled (the traffic is driven at the ports, log 1). -/
def Obligations.FrameIsHighForItsLevel : Prop :=
  ∀ (s : State) (l : List (Option BusWord)),
    s.hw.Inv → s.hw.pwmEn = true → s.hw.divFrac = 0 → s.hw.ctr = 0 → s.hw.acc = 0 →
      (∀ b ∈ l, keepsSlice b = true) → l.length = (s.hw.top.toNat + 1) * s.hw.divInt.toNat →
        highCycles l s = min s.hw.ccAct.toNat (s.hw.top.toNat + 1) * s.hw.divInt.toNat

/-! ### The Back-End's arithmetic and operations -/

/-- R175, R176, R177: the level of a pulse: clamped, monotone, at most `period_counts`, with its ends, and the product
below 2^31. -/
def Obligations.LevelIsClampedAndMonotone : Prop :=
  ∀ (p p' : Int) (n : Nat),
    levelOf p n ≤ n ∧ (p ≤ p' → levelOf p n ≤ levelOf p' n) ∧ (p ≤ 0 → levelOf p n = 0) ∧
      (20000 ≤ p → levelOf p n = n) ∧ (n ≤ 65536 → clampedPulse p * n < 2 ^ 31) ∧
      (0 ≤ p → p ≤ 20000 → levelOf p n = p.toNat * n / 20000)

/-- R179: the shortfall of the realised high time against the clamped pulse, in counter ticks: not negative, and below
`1 + q / 20000`; below 1 where `F_SYS` is a multiple of the frame's product. -/
def Obligations.PulseShortfallIsBounded : Prop :=
  ∀ (P : Params) (p : Int), P.wf = true →
    let q : Rat := clampedPulse p
    let x : Rat := 16 * P.fSys / (50 * P.pwmDiv16)
    let e : Rat := q * x / 20000 - levelOf p (periodCountsOf P)
    0 ≤ e ∧ e < 1 + q / 20000 ∧ (50 * P.pwmDiv16 ∣ 16 * P.fSys → e < 1)

/-- R178: with an integer divider `D` the realised period is never longer than 20 ms and short by less than one counter
tick. -/
def Obligations.PeriodIsShortByLessThanATick : Prop :=
  ∀ (P : Params) (D : Nat), P.wf = true → P.pwmDiv16 = 16 * D →
    (0 : Rat) ≤ P.fSys / 50 - periodCountsOf P * D ∧ (P.fSys : Rat) / 50 - periodCountsOf P * D < D

/-- R172: with the divider 64 and a capable pin, `configure` goes on exactly for 3200 <= F_SYS <= 209718399. -/
def Obligations.ConfigureSucceedsExactlyInRange : Prop :=
  ∀ (P : Params) (pin : Nat) (h : HostState), P.pwmDiv16 = 1024 → h.cfg = none → pin ∈ P.pwmPins →
    (configureOp P pin 50 h = .start (.txns (configureTxns P pin)) ↔ 3200 ≤ P.fSys ∧ P.fSys ≤ 209718399)

/-- R170, R172, R180: the order of `configure`'s checks and what each gives. -/
def Obligations.ConfigureChecksInOrder : Prop :=
  ∀ (P : Params) (pin f : Nat) (h : HostState),
    (h.cfg ≠ none → configureOp P pin f h = .refuse .configureTwice) ∧
    (h.cfg = none → f ≠ 50 → configureOp P pin f h = .refuse .frequencyNotAdmitted) ∧
    (h.cfg = none → f = 50 → pin ∉ P.pwmPins → configureOp P pin f h = .fatal (.pinUnsupported pin)) ∧
    (h.cfg = none → f = 50 → pin ∈ P.pwmPins → (wrapOf P < 0 ∨ 65535 < wrapOf P) →
      configureOp P pin f h = .fatal (.wrapOutOfRange (wrapOf P)))

/-- R173: the three transactions of `configure`, on a disabled slice as R173 requires, leave the chosen divider and top
and the slice enabled (on an enabled one no rule says what follows, log 22); with the last one `cfg` is stored (R170;
the moment is the model's choice, log 18). -/
def Obligations.ConfigureWritesDividerTopEnable : Prop :=
  ∀ (P : Params) (pin : Nat) (s : State), P.wf = true → 0 ≤ wrapOf P → wrapOf P ≤ 65535 → s.hw.pwmEn = false →
    (configureTxns P pin).map PendingTxn.after =
        [.nothing, .nothing, .storeConfig ⟨pin, P.pwmDiv16, (wrapOf P).toNat, periodCountsOf P⟩] ∧
    (∀ c resp h, afterTxn P (.storeConfig c) resp h = .ok { h with cfg := some c }) ∧
    ∃ w1 w2 w3 s1 s2 s3, (configureTxns P pin).map PendingTxn.word = [w1, w2, w3] ∧
      present w1 s = .next s1 ∧ present w2 s1 = .next s2 ∧ present w3 s2 = .next s3 ∧
      s3.hw.div16 = P.pwmDiv16 ∧ (s3.hw.top.toNat : Int) = wrapOf P ∧ s3.hw.pwmEn = true ∧ s3.hw.cc = s.hw.cc

/-- R174, R175, R273: `set_pulse` is one `WR.PWM_CC` with the level of the pulse; before `configure` it is refused (V9).
-/
def Obligations.SetPulseWritesItsLevel : Prop :=
  (∀ (p : Int) (h : HostState),
    (∀ c, h.cfg = some c → setPulseOp p h = .start (.txns [plainTxn (setPulseWord c p)])) ∧
    (h.cfg = none → setPulseOp p h = .refuse .setPulseBeforeConfigure)) ∧
  ∀ (c : PwmConfig) (p : Int) (s : State), c.Sound →
    ∃ t, present (setPulseWord c p) s = .next t ∧ t.hw.cc.toNat = levelOf p c.periodCounts ∧ t.host = s.host

/-! ### The Sweep Controller -/

/-- R192, R193: one sweep tick in each direction. -/
def Obligations.SweepTickSaturatesAndReverses : Prop :=
  ∀ p : Int,
    (2400 ≤ p + 5 → Servo.tick { targetPulse := p, direction := .up } = { targetPulse := 2400, direction := .down }) ∧
    (p + 5 < 2400 → Servo.tick { targetPulse := p, direction := .up } = { targetPulse := p + 5, direction := .up }) ∧
    (p - 5 ≤ 500 → Servo.tick { targetPulse := p, direction := .down } = { targetPulse := 500, direction := .up }) ∧
    (500 < p - 5 → Servo.tick { targetPulse := p, direction := .down } = { targetPulse := p - 5, direction := .down })

/-- R197 (a), R196: for every number of sweep ticks the closed form of the sweep, of period 760, and so its bounds. -/
def Obligations.SweepClosedForm : Prop :=
  ∀ n : Nat, Servo.tick^[n] Servo.initial =
    if n % 760 < 380 then { targetPulse := 500 + 5 * ((n % 760 : Nat) : Int), direction := .up }
    else { targetPulse := 2400 - 5 * ((n % 760 - 380 : Nat) : Int), direction := .down }

/-! ### The Tick Scheduler and the interrupt -/

/-- R205, R206, R207: `arm` begins with its read; after it: the timer taken, a period that does not fit, else the
writes, which leave the period, no stale flag, and the timer and its interrupt enabled. -/
def Obligations.ArmProgramsThePeriod : Prop :=
  ∀ (P : Params) (ms : Nat) (cb : Callback) (s : State) (r : Response),
    let n := ms * P.fSys / 1000
    armOp ms cb = .start (.txns [{ word := memRead .tmrCsr, after := .armChecks ms cb }]) ∧
    (r.rdata.toNat % 2 = 1 → armChecks P ms cb (some r) s.host = .ok (s.host.raiseFatal .schedulerUnavailable)) ∧
    (r.rdata.toNat % 2 = 0 → (n < 1 ∨ 2 ^ 32 < n) → armChecks P ms cb (some r) s.host = .refuse .periodNotRepresentable) ∧
    (r.rdata.toNat % 2 = 0 → 1 ≤ n → n ≤ 2 ^ 32 →
      armChecks P ms cb (some r) s.host = .ok { s.host with phase := .txns (armTxns n cb) } ∧
      (s.hw.tmrEn = false → ∃ w1 w2 w3 s1 s2 s3, (armTxns n cb).map PendingTxn.word = [w1, w2, w3] ∧
        present w1 s = .next s1 ∧ present w2 s1 = .next s2 ∧ present w3 s2 = .next s3 ∧
        s3.hw.tmatch.toNat + 1 = n ∧ s3.hw.tcnt = 0 ∧ s3.hw.ip = false ∧ s3.hw.ovr = false ∧
        s3.hw.tmrEn = true ∧ s3.hw.tmrIe = true))

/-- R208, R209: a handler comes into service only when `irq` is 1, none is in service and the host is not halted, with a
callback registered and Servo State set (V12); a drawn latency that has not passed goes down by one in each cycle of the
request, so that it starts in finite time (the moment it counts as in service is the model's choice, log 17). -/
def Obligations.HandlerStartsOnlyOnRequest : Prop :=
  (∀ s t : State, s.inputs = [] → Sys2Proof.Machine.step s = .next t → s.host.inService = false →
    t.host.inService = true →
      s.hw.irq = true ∧ s.host.halted = false ∧ s.host.handler.isSome = true ∧ s.host.servo.isSome = true) ∧
  ∀ (s t : State) (n : Nat), s.inputs = [] → s.host.halted = false → s.host.inService = false → s.hw.irq = true →
    s.host.irqGap = some (n + 1) → Sys2Proof.Machine.step s = .next t → t.host.irqGap = some n

/-- R208, R209, R236: while a handler is in service the main context does not run, as the model's progress fields show
it (log 16); a handler with nothing left to present returns when its duration has passed, which goes down by one in each
cycle (log 6). -/
def Obligations.MainIsFrozenDuringService : Prop :=
  (∀ s t : State, s.Inv → s.inputs = [] → s.host.inService = true → Sys2Proof.Machine.step s = .next t →
    t.host.hpc = s.host.hpc ∧ t.host.mainGap = s.host.mainGap ∧ t.host.phase.queue = s.host.phase.queue) ∧
  ∀ s : State, s.Inv → s.inputs = [] → s.host.halted = false → s.host.inService = true → s.host.isrQueue = [] →
    ∃ t, Sys2Proof.Machine.step s = .next t ∧ t.hw = idleClk s.hw ∧ t.host.hpc = s.host.hpc ∧
      t.host.mainGap = s.host.mainGap ∧ t.host.phase.queue = s.host.phase.queue ∧
      (s.host.isrLeft ≤ 1 → t.host.inService = false) ∧
      (1 < s.host.isrLeft → t.host.inService = true ∧ t.host.isrQueue = [] ∧ t.host.isrLeft = s.host.isrLeft - 1)

/-- R208, R190, R230: when its latency has passed, the handler acknowledges, which clears `IP` but for a match of that
cycle, runs the sweep tick, and goes on to present its level (the moment of the sweep tick is the model's choice, log
18; the handler's queue and latency are the model's fields, log 16). -/
def Obligations.HandlerAcknowledgesThenTicks : Prop :=
  ∀ (s : State) (sv : Servo) (c : PwmConfig), s.inputs = [] → s.host.halted = false → s.host.inService = false →
    s.hw.irq = true → s.host.irqGap = some 0 → s.host.handler = some .tick → s.host.servo = some sv →
    s.host.cfg = some c →
      ∃ t, Sys2Proof.Machine.step s = .next t ∧ t.hw.ip = s.hw.matchNow ∧ t.hw.tmrIe = s.hw.tmrIe ∧
        t.host.servo = some sv.tick ∧ t.host.inService = true ∧
        t.host.isrQueue = [plainTxn (setPulseWord c sv.tick.targetPulse)]

/-- R205, R208, R210: a host function as callback begins after the acknowledgement and goes on with the response of each
access (the functions as maps of what they see are the model's choice, log 12); over an unset Servo State it has no
meaning (R42, V12); one that returned false disables the timer and its interrupt and forgets the callback (that the
record changes at the end of the cycle of the disable is the model's choice, log 18; the handler's queue and gap are the
model's fields, log 16). -/
def Obligations.CancelDisablesTheTimer : Prop :=
  (∀ (P : Params) (h : HostState) (id memory : Nat) (resp : Option Response),
    h.handler = some (.hostFn id memory) →
    (h.servo = none → isrBody P h = .refuse .servoUnset ∧ resumeBody P resp h = .refuse .servoUnset) ∧
    ∀ sv, h.servo = some sv →
      let m := P.hostFn id (h.callbackView sv memory resp)
      let h1 := h.recordMove id m
      (resp = none → isrBody P h = resumeBody P resp h) ∧
      (∀ w, m.act = .access w →
        resumeBody P resp h = .ok { h1 with isrQueue := [{ word := w, after := .resumeCallback }] }) ∧
      (m.act = .finish true → resumeBody P resp h = .ok { h1 with isrQueue := [] }) ∧
      (m.act = .finish false →
        resumeBody P resp h =
          .ok { h1 with isrQueue := [{ word := memWrite .tmrCsr 0, after := .forgetHandler }] })) ∧
  ∀ (s : State) (x : PendingTxn), x = { word := memWrite .tmrCsr 0, after := .forgetHandler } →
    s.inputs = [] → s.host.halted = false → s.host.inService = true → s.host.isrQueue = [x] →
    s.host.isrGap = some 0 →
      ∃ t, Sys2Proof.Machine.step s = .next t ∧ t.hw.tmrEn = false ∧ t.hw.tmrIe = false ∧ t.hw.irq = false ∧
        t.host.handler = none ∧ t.host.isrQueue = []

/-- R213: in the idle loop, with no handler in service and none requested, main presents nothing (the loop as a wait
that begins again is the model's choice, log 11). -/
def Obligations.MainIsSilentAfterBoot : Prop :=
  ∀ s : State, s.inputs = [] → s.host.halted = false → s.host.inService = false → s.hw.irq = false →
    s.host.hpc = 10 → (s.host.phase = .ready ∨ ∃ n, s.host.phase = .waiting n) →
      ∃ t, Sys2Proof.Machine.step s = .next t ∧ t.hw = idleClk s.hw ∧ t.resp = none ∧ t.host.hpc = 10 ∧
        (t.host.phase = .ready ∨ ∃ n, t.host.phase = .waiting n) ∧ t.host.servo = s.host.servo ∧
        t.host.cfg = s.host.cfg ∧ t.host.handler = s.host.handler

/-- R212: a wait of the main context presents nothing for as many cycles as it has left (the countdown is the model's
choice, log 10; the phase and the gaps are the model's fields, log 16, and that a drawn latency is forgotten while `irq` is
0 is the model's choice, log 17). -/
def Obligations.WaitPresentsNothing : Prop :=
  ∀ (s : State) (n : Nat), s.inputs = [] → s.host.halted = false → s.host.inService = false → s.hw.irq = false →
    s.host.phase = .waiting (n + 1) →
      Sys2Proof.Machine.step s = .next { s with
        hw := idleClk s.hw, resp := none, host := { s.host with phase := .waiting n, irqGap := none } }

/-- R233, R263, R264, V12: the source's program, from any stage of it and for any timing draws, is never refused, and
the only error it can record is `ConfigurationError`; at items 2, 4 and 6 the pulse of that item is queued, or its level
is written and the item completes, in the order MAX, MID, MIN. The hypothesis on `F_SYS` is the lower end of R207's
range for 10 ms; the stages are the model's (logs 1, 8, 16). -/
def Obligations.BootProgramNeverGoesWrong : Prop :=
  ∀ (P : Params) (pin holdMs idleMs : Nat) (s : State), P.wf = true → P.program = Config.bootList pin holdMs idleMs →
    100 ≤ P.fSys → BootInv P pin s →
      ∃ t, stepWith P s = .next t ∧ BootInv P pin t ∧
        ∀ p, s.host.halted = false → demoPulse s.host.hpc = some p →
          (t.host.hpc = s.host.hpc ∧ t.host.phase = .txns [plainTxn (setPulseWord (configOf P pin) p)]) ∨
          (t.host.hpc = s.host.hpc + 1 ∧ t.host.phase = .ready ∧ t.hw.cc.toNat = levelOf p (periodCountsOf P))

/-- R45, R263: the reset state is a stage of the source's program, whatever the parameters (the stages are the model's,
log 16). -/
def Obligations.ResetIsABootStage : Prop :=
  ∀ (P : Params) (pin : Nat), BootInv P pin State.reset
end

