-- ==== Sys2Proof/Laws/State.lean ====
section
/-! SUPPORT. One lemma per field per update of State, HostState and Pwmt: each is true by rfl and belongs to the simp set,
so that no proof unfolds a record update. -/

namespace Sys2Proof.Machine

section Cycle
variable (s : State) (w : BusWrite) (r : Option Response)

@[simp] theorem State.cycle_hw : (s.cycle w r).hw = clk s.hw w := rfl
@[simp] theorem State.cycle_resp : (s.cycle w r).resp = r := rfl
@[simp] theorem State.cycle_host : (s.cycle w r).host = s.host := rfl
@[simp] theorem State.cycle_inputs : (s.cycle w r).inputs = s.inputs := rfl
@[simp] theorem State.cycle_draws : (s.cycle w r).draws = s.draws := rfl

@[simp] theorem State.idleCycle_hw : s.idleCycle.hw = idleClk s.hw := rfl
@[simp] theorem State.idleCycle_resp : s.idleCycle.resp = none := rfl
@[simp] theorem State.idleCycle_host : s.idleCycle.host = s.host := rfl
@[simp] theorem State.idleCycle_inputs : s.idleCycle.inputs = s.inputs := rfl
@[simp] theorem State.idleCycle_draws : s.idleCycle.draws = s.draws := rfl

@[simp] theorem State.readCycle_hw (g : Reg) : (s.readCycle g).hw = idleClk s.hw := rfl
@[simp] theorem State.readCycle_resp (g : Reg) :
    (s.readCycle g).resp = some { rdata := s.hw.readReg g, err := false } := rfl
@[simp] theorem State.readCycle_host (g : Reg) : (s.readCycle g).host = s.host := rfl
@[simp] theorem State.readCycle_inputs (g : Reg) : (s.readCycle g).inputs = s.inputs := rfl
@[simp] theorem State.readCycle_draws (g : Reg) : (s.readCycle g).draws = s.draws := rfl

@[simp] theorem State.writeCycle_hw : (s.writeCycle w).hw = clk s.hw w := rfl
@[simp] theorem State.writeCycle_resp : (s.writeCycle w).resp = some { rdata := 0, err := false } := rfl
@[simp] theorem State.writeCycle_host : (s.writeCycle w).host = s.host := rfl
@[simp] theorem State.writeCycle_inputs : (s.writeCycle w).inputs = s.inputs := rfl
@[simp] theorem State.writeCycle_draws : (s.writeCycle w).draws = s.draws := rfl

variable (a : Offset) (we : Bool)

@[simp] theorem State.illegalCycle_hw : (s.illegalCycle a we).hw = idleClk s.hw := rfl
@[simp] theorem State.illegalCycle_resp : (s.illegalCycle a we).resp = some { rdata := 0, err := true } := rfl
@[simp] theorem State.illegalCycle_host :
    (s.illegalCycle a we).host = s.host.raiseFatal (.busError a we) := rfl
@[simp] theorem State.illegalCycle_inputs : (s.illegalCycle a we).inputs = s.inputs := rfl
@[simp] theorem State.illegalCycle_draws : (s.illegalCycle a we).draws = s.draws := rfl

@[simp] theorem State.systemReset_hw : s.systemReset.hw = Pwmt.reset := rfl
@[simp] theorem State.systemReset_host : s.systemReset.host = HostState.reset := rfl
@[simp] theorem State.systemReset_resp : s.systemReset.resp = none := rfl
@[simp] theorem State.systemReset_inputs : s.systemReset.inputs = s.inputs := rfl
@[simp] theorem State.systemReset_draws : s.systemReset.draws = s.draws := rfl
end Cycle

section Host
variable (h : HostState) (e : HostError) (n : Nat)

@[simp] theorem HostState.raiseFatal_halted : (h.raiseFatal e).halted = true := rfl
@[simp] theorem HostState.raiseFatal_error : (h.raiseFatal e).error = some (h.error.getD e) := rfl
@[simp] theorem HostState.raiseFatal_cfg : (h.raiseFatal e).cfg = h.cfg := rfl
@[simp] theorem HostState.raiseFatal_servo : (h.raiseFatal e).servo = h.servo := rfl
@[simp] theorem HostState.raiseFatal_handler : (h.raiseFatal e).handler = h.handler := rfl
@[simp] theorem HostState.raiseFatal_inService : (h.raiseFatal e).inService = h.inService := rfl
@[simp] theorem HostState.raiseFatal_hpc : (h.raiseFatal e).hpc = h.hpc := rfl
@[simp] theorem HostState.raiseFatal_phase : (h.raiseFatal e).phase = h.phase := rfl
@[simp] theorem HostState.raiseFatal_isrQueue : (h.raiseFatal e).isrQueue = h.isrQueue := rfl
@[simp] theorem HostState.raiseFatal_isrGap : (h.raiseFatal e).isrGap = h.isrGap := rfl
@[simp] theorem HostState.raiseFatal_isrLeft : (h.raiseFatal e).isrLeft = h.isrLeft := rfl

@[simp] theorem HostState.enterIsr_inService : (h.enterIsr n).inService = true := rfl
@[simp] theorem HostState.enterIsr_isrQueue : (h.enterIsr n).isrQueue = [] := rfl
@[simp] theorem HostState.enterIsr_isrGap : (h.enterIsr n).isrGap = none := rfl
@[simp] theorem HostState.enterIsr_isrLeft : (h.enterIsr n).isrLeft = n := rfl
@[simp] theorem HostState.enterIsr_cfg : (h.enterIsr n).cfg = h.cfg := rfl
@[simp] theorem HostState.enterIsr_servo : (h.enterIsr n).servo = h.servo := rfl
@[simp] theorem HostState.enterIsr_handler : (h.enterIsr n).handler = h.handler := rfl
@[simp] theorem HostState.enterIsr_halted : (h.enterIsr n).halted = h.halted := rfl
@[simp] theorem HostState.enterIsr_hpc : (h.enterIsr n).hpc = h.hpc := rfl
@[simp] theorem HostState.enterIsr_error : (h.enterIsr n).error = h.error := rfl
@[simp] theorem HostState.enterIsr_phase : (h.enterIsr n).phase = h.phase := rfl

@[simp] theorem HostState.leaveIsr_inService : h.leaveIsr.inService = false := rfl
@[simp] theorem HostState.leaveIsr_isrQueue : h.leaveIsr.isrQueue = [] := rfl
@[simp] theorem HostState.leaveIsr_isrGap : h.leaveIsr.isrGap = none := rfl
@[simp] theorem HostState.leaveIsr_isrLeft : h.leaveIsr.isrLeft = 0 := rfl
@[simp] theorem HostState.leaveIsr_cfg : h.leaveIsr.cfg = h.cfg := rfl
@[simp] theorem HostState.leaveIsr_servo : h.leaveIsr.servo = h.servo := rfl
@[simp] theorem HostState.leaveIsr_handler : h.leaveIsr.handler = h.handler := rfl
@[simp] theorem HostState.leaveIsr_halted : h.leaveIsr.halted = h.halted := rfl
@[simp] theorem HostState.leaveIsr_hpc : h.leaveIsr.hpc = h.hpc := rfl
@[simp] theorem HostState.leaveIsr_error : h.leaveIsr.error = h.error := rfl
@[simp] theorem HostState.leaveIsr_phase : h.leaveIsr.phase = h.phase := rfl
end Host

section Edge
variable (h : Pwmt) (w : BusWrite)

@[simp] theorem clk_pwmEn : (clk h w).pwmEn = w.pwmEn.getD h.pwmEn := rfl
@[simp] theorem clk_divInt : (clk h w).divInt = w.divInt.getD h.divInt := rfl
@[simp] theorem clk_divFrac : (clk h w).divFrac = w.divFrac.getD h.divFrac := rfl
@[simp] theorem clk_top : (clk h w).top = w.top.getD h.top := rfl
@[simp] theorem clk_cc : (clk h w).cc = w.cc.getD h.cc := rfl
@[simp] theorem clk_ctr : (clk h w).ctr = (pwmNext h).ctr := rfl
@[simp] theorem clk_acc : (clk h w).acc = (pwmNext h).acc := rfl
@[simp] theorem clk_ccAct : (clk h w).ccAct = (pwmNext h).ccAct := rfl
@[simp] theorem clk_tmrEn : (clk h w).tmrEn = w.tmrEn.getD h.tmrEn := rfl
@[simp] theorem clk_tmrIe : (clk h w).tmrIe = w.tmrIe.getD h.tmrIe := rfl
@[simp] theorem clk_tcnt : (clk h w).tcnt = (tmrNext h).tcnt := rfl
@[simp] theorem clk_tmatch : (clk h w).tmatch = w.tmatch.getD h.tmatch := rfl
@[simp] theorem clk_ip : (clk h w).ip = (flagNext h (tmrNext h).isMatch w.clrIp w.clrOvr).1 := rfl
@[simp] theorem clk_ovr : (clk h w).ovr = (flagNext h (tmrNext h).isMatch w.clrIp w.clrOvr).2 := rfl

@[simp] theorem idleClk_pwmEn : (idleClk h).pwmEn = h.pwmEn := rfl
@[simp] theorem idleClk_divInt : (idleClk h).divInt = h.divInt := rfl
@[simp] theorem idleClk_divFrac : (idleClk h).divFrac = h.divFrac := rfl
@[simp] theorem idleClk_top : (idleClk h).top = h.top := rfl
@[simp] theorem idleClk_cc : (idleClk h).cc = h.cc := rfl
@[simp] theorem idleClk_ctr : (idleClk h).ctr = (pwmNext h).ctr := rfl
@[simp] theorem idleClk_acc : (idleClk h).acc = (pwmNext h).acc := rfl
@[simp] theorem idleClk_ccAct : (idleClk h).ccAct = (pwmNext h).ccAct := rfl
@[simp] theorem idleClk_tmrEn : (idleClk h).tmrEn = h.tmrEn := rfl
@[simp] theorem idleClk_tmrIe : (idleClk h).tmrIe = h.tmrIe := rfl
@[simp] theorem idleClk_tcnt : (idleClk h).tcnt = (tmrNext h).tcnt := rfl
@[simp] theorem idleClk_tmatch : (idleClk h).tmatch = h.tmatch := rfl
end Edge

end Sys2Proof.Machine
end

