-- ==== Sys2Proof/Laws/Units.lean ====
section
/-! SUPPORT. What the next-state functions of the two units can give, case by case, and what the clock edge keeps of the
block's invariant. -/

namespace Sys2Proof.Machine

variable {h : Pwmt}

/-- A disabled slice: counter and accumulator at 0, the level follows `CC` (R134). -/
theorem pwmNext_disabled (en : h.pwmEn = false) : pwmNext h = { ctr := 0, acc := 0, ccAct := h.cc } := by
  simp [pwmNext, en]

/-- An enabled cycle without a counter tick (R131). -/
theorem pwmNext_hold (en : h.pwmEn = true) (lt : h.acc.toNat + 16 < h.div16) :
    pwmNext h = { ctr := h.ctr, acc := BitVec.ofNat 12 (h.acc.toNat + 16), ccAct := h.ccAct } := by
  simp [pwmNext, en, lt]

/-- A counter tick at `TOP`: the counter wraps and the level is latched (R132, R133). -/
theorem pwmNext_wrap (en : h.pwmEn = true) (ge : h.div16 ≤ h.acc.toNat + 16) (top : h.ctr = h.top) :
    pwmNext h = { ctr := 0, acc := BitVec.ofNat 12 (h.acc.toNat + 16 - h.div16), ccAct := h.cc } := by
  simp [pwmNext, en, top, show ¬ h.acc.toNat + 16 < h.div16 by omega]

/-- A counter tick below `TOP`: the counter counts (R132). -/
theorem pwmNext_count (en : h.pwmEn = true) (ge : h.div16 ≤ h.acc.toNat + 16) (top : h.ctr ≠ h.top) :
    pwmNext h = { ctr := h.ctr + 1, acc := BitVec.ofNat 12 (h.acc.toNat + 16 - h.div16), ccAct := h.ccAct } := by
  simp [pwmNext, en, top, show ¬ h.acc.toNat + 16 < h.div16 by omega]

/-- A disabled timer (R153). -/
theorem tmrNext_disabled (en : h.tmrEn = false) : tmrNext h = { tcnt := 0, isMatch := false } := by
  simp [tmrNext, en]

/-- A match (R151). -/
theorem tmrNext_match (en : h.tmrEn = true) (eq : h.tcnt = h.tmatch) : tmrNext h = { tcnt := 0, isMatch := true } := by
  simp [tmrNext, en, eq]

/-- A counting cycle of the timer (R150). -/
theorem tmrNext_count (en : h.tmrEn = true) (ne : h.tcnt ≠ h.tmatch) :
    tmrNext h = { tcnt := h.tcnt + 1, isMatch := false } := by
  simp [tmrNext, en, ne]

/-- The divider is below 2^12 (R22). -/
theorem Pwmt.div16_lt (h : Pwmt) : h.div16 < 4096 := by
  have a := h.divInt.isLt
  have b := h.divFrac.isLt
  unfold Pwmt.div16
  omega

/-- A divider of at least 1 is at least 16 sixteenths (R22). -/
theorem Pwmt.sixteen_le_div16 (d : 1 ≤ h.divInt.toNat) : 16 ≤ h.div16 := by
  unfold Pwmt.div16
  omega

end Sys2Proof.Machine
end

