-- ==== Sys2Proof/Laws/Exec.lean ====
section
/-! SUPPORT. What a transaction can do: every one of them is one clock edge with an allowed write and a response without
error. -/

namespace Sys2Proof.Machine

theorem allowed_none (h : Pwmt) : BusWrite.Allowed h {} :=
  ⟨fun _ => ⟨rfl, rfl⟩, fun _ => rfl, fun _ => rfl, fun _ hd => by cases hd⟩

/-- What a transaction writes, from its row's rule (R103 to R120), and what it answers (R102). Everything that `exec` can
do is said here once. -/
theorem exec_inv (i : Instr) (s : State) :
    ∃ w, w.Allowed s.hw ∧ exec i s =
      .next (s.cycle w (some { rdata := if i.wdata.isNone then s.hw.readReg i.reg else 0, err := false })) := by
  cases i
  case wrPwmDiv v =>
    by_cases c : s.hw.pwmEn = false ∧ fieldInt v ≠ 0
    · refine ⟨_, ⟨fun e => ?_, fun _ => rfl, fun _ => rfl, fun d hd => ?_⟩, if_pos c⟩
      · simp [c.1] at e
      · cases hd; exact c.2
    · exact ⟨{}, allowed_none _, if_neg c⟩
  case wrPwmTop v =>
    by_cases c : s.hw.pwmEn = false
    · refine ⟨_, ⟨fun _ => ⟨rfl, rfl⟩, fun e => ?_, fun _ => rfl, fun d hd => by cases hd⟩, if_pos c⟩
      simp [c] at e
    · exact ⟨{}, allowed_none _, if_neg c⟩
  case wrTmrMatch v =>
    by_cases c : s.hw.tmrEn = false
    · refine ⟨_, ⟨fun _ => ⟨rfl, rfl⟩, fun _ => rfl, fun e => ?_, fun d hd => by cases hd⟩, if_pos c⟩
      simp [c] at e
    · exact ⟨{}, allowed_none _, if_neg c⟩
  all_goals exact ⟨_, ⟨fun _ => ⟨rfl, rfl⟩, fun _ => rfl, fun _ => rfl, fun _ hd => by cases hd⟩, rfl⟩

/-- A presented word is one clock edge of the block, legal or not. -/
theorem present_inv (w : BusWord) (s : State) :
    ∃ b t, b.Allowed s.hw ∧ present w s = .next t ∧ t.hw = clk s.hw b ∧ t.inputs = s.inputs ∧ t.draws = s.draws ∧
      (t.host = s.host ∨ t.host = s.host.raiseFatal (.busError (addrOf w) (weOf w))) := by
  unfold present
  split
  · next i _ =>
    obtain ⟨b, hb, e⟩ := exec_inv i s
    exact ⟨b, _, hb, e, rfl, rfl, rfl, .inl rfl⟩
  · exact ⟨{}, _, allowed_none _, rfl, rfl, rfl, rfl, .inr rfl⟩

end Sys2Proof.Machine
end

