-- ==== Sys2Proof/Laws/Contexts.lean ====
section
/-! SUPPORT. What the host's choice for a cycle can touch: never the block, the response or the ports' inputs. -/

namespace Sys2Proof.Machine

open Config (Params)

/-- The state a move leaves agrees with `s` on the block, the response and the inputs. -/
def HostMove.Frame (s : State) : HostMove → Prop
  | .idle s' => s'.hw = s.hw ∧ s'.resp = s.resp ∧ s'.inputs = s.inputs
  | .present _ s' => s'.hw = s.hw ∧ s'.resp = s.resp ∧ s'.inputs = s.inputs
  | .refuse _ => True

theorem mainTxn_frame (P : Params) (t : PendingTxn) (q : List PendingTxn) (s : State) :
    (mainTxn P t q s).Frame s := by
  unfold mainTxn
  dsimp only
  split <;> exact ⟨rfl, rfl, rfl⟩

theorem mainMove_frame (P : Params) (fuel : Nat) (s : State) : (mainMove P fuel s).Frame s := by
  induction fuel generalizing s with
  | zero => exact ⟨rfl, rfl, rfl⟩
  | succ n ih =>
    unfold mainMove
    split
    · exact mainTxn_frame P _ _ s
    · exact ih _
    · exact ih _
    · exact ⟨rfl, rfl, rfl⟩
    · split
      · exact ⟨rfl, rfl, rfl⟩
      · split
        · trivial
        · exact ⟨rfl, rfl, rfl⟩
        · exact ih _
        · exact ih _

theorem isrMove_frame (P : Params) (s : State) : (isrMove P s).Frame s := by
  unfold isrMove
  split
  · exact ⟨rfl, rfl, rfl⟩
  · dsimp only
    split <;> exact ⟨rfl, rfl, rfl⟩

theorem startIsr_frame (P : Params) (s : State) : (startIsr P s).Frame s := by
  unfold startIsr
  split
  · trivial
  · trivial
  · exact ⟨rfl, rfl, rfl⟩

/-- Everything a move of the host leaves alone. -/
theorem hostMove_frame (P : Params) (s : State) : (hostMove P s).Frame s := by
  unfold hostMove
  split
  · exact ⟨rfl, rfl, rfl⟩
  · split
    · exact isrMove_frame P s
    · split
      · unfold requestMove
        dsimp only
        split
        · exact startIsr_frame P _
        · exact mainMove_frame P _ _
      · exact mainMove_frame P _ _

end Sys2Proof.Machine
end

