-- ==== Sys2Proof/Laws/Decode.lean ====
section
/-! SUPPORT. The small lemmas of the decoder and the encoder. -/

namespace Sys2Proof

/-- The bits of a transaction word (R80). -/
theorem getLsbD_txnWord (we : Bool) (a : Offset) (v : Word) (i : Nat) :
    (txnWord we a v).getLsbD i =
      if i < 32 then v.getLsbD i else if i < 40 then a.getLsbD (i - 32) else i == 40 && we := by
  rcases Nat.lt_trichotomy i 40 with h | rfl | h
  · by_cases h32 : i < 32
    · simp [txnWord, h32, show i < 41 by omega, show ¬ 40 ≤ i by omega]
    · have hv : v.getLsbD i = false := BitVec.getLsbD_of_ge v i (by omega)
      simp [txnWord, h32, h, hv, show i < 41 by omega]
  · simp [txnWord]
  · simp [txnWord, show ¬ i < 41 by omega, show ¬ i < 40 by omega, show ¬ i < 32 by omega, show ¬ i = 40 by omega]

@[simp] theorem weOf_txnWord (we : Bool) (a : Offset) (v : Word) : weOf (txnWord we a v) = we := by
  rw [weOf, getLsbD_txnWord]
  simp

@[simp] theorem addrOf_txnWord (we : Bool) (a : Offset) (v : Word) : addrOf (txnWord we a v) = a := by
  apply BitVec.eq_of_getLsbD_eq
  intro i hi
  simp [addrOf, getLsbD_txnWord, hi, show 32 + i < 40 by omega]

@[simp] theorem wdataOf_txnWord (we : Bool) (a : Offset) (v : Word) : wdataOf (txnWord we a v) = v := by
  apply BitVec.eq_of_getLsbD_eq
  intro i hi
  simp [wdataOf, getLsbD_txnWord, hi]

/-- A transaction word is made of its three fields (R80). -/
theorem txnWord_fields (w : BusWord) : txnWord (weOf w) (addrOf w) (wdataOf w) = w := by
  apply BitVec.eq_of_getLsbD_eq
  intro i hi
  rw [getLsbD_txnWord]
  split
  · next h => simp [wdataOf, h]
  · split
    · next h => simp [addrOf, show i - 32 < 8 by omega, show 32 + (i - 32) = i by omega]
    · have h : i = 40 := by omega
      subst h
      simp [weOf]

/-- Every register stands at its own offset (R65). -/
@[simp] theorem regAt_offset (r : Reg) : regAt r.offset = some r := by cases r <;> rfl

/-- An offset that holds a register is that register's (R65). -/
theorem offset_of_regAt {a : Offset} {r : Reg} (h : regAt a = some r) : a = r.offset := by
  unfold regAt at h
  split at h <;> cases h <;> (apply BitVec.eq_of_toNat_eq; simp_all [Reg.offset, Reg.index])

/-- The transaction of a register's offset selects that register's row (R84). -/
@[simp] theorem decodeWord_txnWord (we : Bool) (r : Reg) (v : Word) :
    decodeWord (txnWord we r.offset v) = .ok (if we then r.write v else r.read) := by
  simp [decodeWord]

/-- Everything the decoder can answer on a word: the row of the register at its address, or a rejection where no
register stands there. -/
theorem decodeWord_cases (w : BusWord) :
    (∃ r : Reg, addrOf w = r.offset ∧ decodeWord w = .ok (if weOf w then r.write (wdataOf w) else r.read)) ∨
      regAt (addrOf w) = none ∧ decodeWord w = .reject (addressReject (addrOf w) (weOf w)) := by
  unfold decodeWord
  split
  · next r h => exact .inl ⟨r, offset_of_regAt h, rfl⟩
  · next h => exact .inr ⟨h, rfl⟩

@[simp] theorem reg_write_reg (r : Reg) (v : Word) : (r.write v).reg = r := by cases r <;> rfl
@[simp] theorem reg_read_reg (r : Reg) : r.read.reg = r := by cases r <;> rfl
@[simp] theorem reg_write_wdata (r : Reg) (v : Word) : (r.write v).wdata = some v := by cases r <;> rfl
@[simp] theorem reg_read_wdata (r : Reg) : r.read.wdata = none := by cases r <;> rfl

/-- A transaction is the read or the write of its register. -/
theorem instr_eq_of_reg (i : Instr) : i = match i.wdata with | none => i.reg.read | some v => i.reg.write v := by
  cases i <;> rfl

end Sys2Proof
end

