-- ==== Sys2Proof/Laws/Step.lean ====
section
/-! SUPPORT. What a step can do to the block: a reset, or one clock edge with an allowed write. -/

namespace Sys2Proof.Machine

open Config (Params)

/-- A cycle that the outside drives always has a next state: reset, or one clock edge (R100, R260). -/
theorem portCycle_inv (p : PortInput) (s : State) :
    ∃ t, portCycle p s = .next t ∧ t.inputs = s.inputs ∧
      (p.rst = true ∧ t = s.systemReset ∨ p.rst = false ∧ ∃ b, BusWrite.Allowed s.hw b ∧ t.hw = clk s.hw b) := by
  unfold portCycle
  split
  · next r => exact ⟨_, rfl, rfl, .inl ⟨r, rfl⟩⟩
  · next r =>
    have r : p.rst = false := by simpa using r
    split
    · next w _ =>
      obtain ⟨b, t, hb, e, hw, hi, -, -⟩ := present_inv w s
      exact ⟨t, e, hi, .inr ⟨r, b, hb, hw⟩⟩
    · exact ⟨_, rfl, rfl, .inr ⟨r, {}, allowed_none _, rfl⟩⟩

/-- The end of a transaction's cycle touches the host only. -/
theorem finishTxn_frame {P : Params} {a : AfterTxn} {s t : State} (e : finishTxn P a s = .next t) :
    t.hw = s.hw ∧ t.resp = s.resp ∧ t.inputs = s.inputs ∧ t.draws = s.draws := by
  unfold finishTxn at e
  split at e
  · cases e; exact ⟨rfl, rfl, rfl, rfl⟩
  · split at e
    · cases e
    · cases e; exact ⟨rfl, rfl, rfl, rfl⟩

/-- A cycle that the host program drives is one clock edge of the block. -/
theorem hostCycle_inv {P : Params} {s t : State} (e : hostCycle P s = .next t) :
    t.inputs = s.inputs ∧ ∃ b, BusWrite.Allowed s.hw b ∧ t.hw = clk s.hw b := by
  have f := hostMove_frame P s
  unfold hostCycle at e
  split at e
  · cases e
  · next s' m =>
    rw [m] at f
    obtain ⟨hw, -, hi⟩ := f
    cases e
    exact ⟨hi, {}, allowed_none _, by rw [← hw]; rfl⟩
  · next x s' m =>
    rw [m] at f
    obtain ⟨hw, -, hi⟩ := f
    obtain ⟨b, u, hb, hp, hu, hui, -, -⟩ := present_inv x.word s'
    rw [hp] at e
    obtain ⟨th, -, ti, -⟩ := finishTxn_frame e
    exact ⟨by rw [ti, hui, hi], b, hw ▸ hb, by rw [th, hu, hw]⟩

/-- EVERYTHING A STEP CAN DO TO THE BLOCK: with `rst` the reset state, else one clock edge with an allowed write. -/
theorem stepWith_hw {P : Params} {s t : State} (e : stepWith P s = .next t) :
    (∃ p rest, s.inputs = p :: rest ∧ p.rst = true ∧ t.hw = Pwmt.reset) ∨
      ∃ b, BusWrite.Allowed s.hw b ∧ t.hw = clk s.hw b := by
  unfold stepWith at e
  split at e
  · next p rest hi =>
    obtain ⟨u, hu, -, c⟩ := portCycle_inv p { s with inputs := rest }
    rw [hu] at e
    cases e
    rcases c with ⟨r, rfl⟩ | ⟨-, b, hb, hw⟩
    · exact .inl ⟨p, rest, hi, r, rfl⟩
    · exact .inr ⟨b, hb, hw⟩
  · exact .inr (hostCycle_inv e).2

end Sys2Proof.Machine
end

