-- ==== Sys2Proof/Laws/Host.lean ====
section
/-! SUPPORT. What the host's operations can do, once for each, and the step lemmas for a cycle without reset. -/

namespace Sys2Proof.Machine

open Config (Params)

/-! ### Parameters and operand forms -/

/-- The machine's own parameters meet the constraints of R8. -/
theorem params_wf : Config.params.wf = true := by
  have d : Config.params.pwmDiv16 = 16 + Config.pwmDiv16Less16.val := rfl
  have f : Config.params.fSys = Config.fSysLessOne + 1 := rfl
  have lt := Config.pwmDiv16Less16.isLt
  simp only [Params.wf, d, f, Bool.and_eq_true, decide_eq_true_eq]
  omega

/-- The clamp to the period, by cases (R177). -/
theorem clampedPulse_cases (p : Int) :
    (p < 0 ∧ clampedPulse p = 0) ∨ (0 ≤ p ∧ p ≤ 20000 ∧ clampedPulse p = p.toNat) ∨
      (20000 < p ∧ clampedPulse p = 20000) := by
  simp only [clampedPulse, clamp, Config.periodUs]
  omega

/-- The platform's decoder recovers the offset of a register from the host's address (R125). -/
theorem platformOffset_hostAddress (base : Nat) (r : Reg) : platformOffset base (hostAddress base r) = some r.offset := by
  have lt := r.offset.isLt
  simp [platformOffset, hostAddress, lt]

/-- A match is the timer unit's signal (R151). -/
@[simp] theorem tmrNext_isMatch (h : Pwmt) : (tmrNext h).isMatch = h.matchNow := by
  unfold tmrNext Pwmt.matchNow
  cases h.tmrEn <;> simp
  split <;> simp_all

/-- `FlagNext`, flag by flag (R152). -/
theorem flagNext_eq (h : Pwmt) (isMatch clrIp clrOvr : Bool) :
    flagNext h isMatch clrIp clrOvr =
      (isMatch || (h.ip && !clrIp), (h.ovr && !clrOvr) || (isMatch && (h.ip && !clrIp))) := by
  cases isMatch <;> simp [flagNext]

/-- A host write is the write transaction of its register (R10). -/
theorem present_memWrite (r : Reg) (v : Nat) (s : State) :
    present (memWrite r v) s = exec (r.write (BitVec.ofNat 32 v)) s := by
  simp [present, memWrite]

/-- A host read is the read transaction of its register (R10). -/
theorem present_memRead (r : Reg) (s : State) : present (memRead r) s = exec r.read s := by
  simp [present, memRead]

/-! ### Operations of the main context -/

/-- Completing an operation moves `hpc` and the phase and nothing else; the idle loop keeps `hpc`. -/
theorem completeOp_eq (P : Params) (h : HostState) :
    completeOp P h = { h with hpc := (completeOp P h).hpc, phase := .ready } ∧
      ((completeOp P h).hpc = h.hpc + 1 ∨
        (completeOp P h).hpc = h.hpc ∧ ∃ c, P.program[h.hpc]? = some (.idleLoop c)) := by
  unfold completeOp
  split
  · next c e => exact ⟨rfl, .inr ⟨rfl, c, e⟩⟩
  · exact ⟨rfl, .inl rfl⟩

section CompleteOp
variable (P : Params) (h : HostState)

@[simp] theorem completeOp_phase : (completeOp P h).phase = .ready := by rw [(completeOp_eq P h).1]
@[simp] theorem completeOp_cfg : (completeOp P h).cfg = h.cfg := by rw [(completeOp_eq P h).1]
@[simp] theorem completeOp_servo : (completeOp P h).servo = h.servo := by rw [(completeOp_eq P h).1]
@[simp] theorem completeOp_handler : (completeOp P h).handler = h.handler := by rw [(completeOp_eq P h).1]
@[simp] theorem completeOp_inService : (completeOp P h).inService = h.inService := by rw [(completeOp_eq P h).1]
@[simp] theorem completeOp_halted : (completeOp P h).halted = h.halted := by rw [(completeOp_eq P h).1]
@[simp] theorem completeOp_error : (completeOp P h).error = h.error := by rw [(completeOp_eq P h).1]
@[simp] theorem completeOp_mainGap : (completeOp P h).mainGap = h.mainGap := by rw [(completeOp_eq P h).1]
@[simp] theorem completeOp_isrQueue : (completeOp P h).isrQueue = h.isrQueue := by rw [(completeOp_eq P h).1]
@[simp] theorem completeOp_isrGap : (completeOp P h).isrGap = h.isrGap := by rw [(completeOp_eq P h).1]
@[simp] theorem completeOp_irqGap : (completeOp P h).irqGap = h.irqGap := by rw [(completeOp_eq P h).1]
@[simp] theorem completeOp_isrLeft : (completeOp P h).isrLeft = h.isrLeft := by rw [(completeOp_eq P h).1]
end CompleteOp

/-- Everything the beginning of `configure` can answer (R170, R172, R180). -/
theorem configureOp_cases (P : Params) (pin f : Nat) (h : HostState) :
    (h.cfg.isSome = true ∧ configureOp P pin f h = .refuse .configureTwice) ∨
    (h.cfg = none ∧ f ≠ 50 ∧ configureOp P pin f h = .refuse .frequencyNotAdmitted) ∨
    (h.cfg = none ∧ f = 50 ∧ pin ∉ P.pwmPins ∧ configureOp P pin f h = .fatal (.pinUnsupported pin)) ∨
    (h.cfg = none ∧ f = 50 ∧ pin ∈ P.pwmPins ∧ (wrapOf P < 0 ∨ 65535 < wrapOf P) ∧
      configureOp P pin f h = .fatal (.wrapOutOfRange (wrapOf P))) ∨
    (h.cfg = none ∧ f = 50 ∧ pin ∈ P.pwmPins ∧ 0 ≤ wrapOf P ∧ wrapOf P ≤ 65535 ∧
      configureOp P pin f h = .start (.txns (configureTxns P pin))) := by
  unfold configureOp
  rw [show Config.pwmFreq = 50 from rfl]
  split
  · next c => exact .inl ⟨c, rfl⟩
  · next c =>
    have c : h.cfg = none := by simpa using c
    split
    · next e => exact .inr (.inl ⟨c, e, rfl⟩)
    · next e =>
      have e : f = 50 := by simpa using e
      split
      · next m => exact .inr (.inr (.inl ⟨c, e, m, rfl⟩))
      · next m =>
        have m : pin ∈ P.pwmPins := by simpa using m
        split
        · next w => exact .inr (.inr (.inr (.inl ⟨c, e, m, w, rfl⟩)))
        · next w => exact .inr (.inr (.inr (.inr ⟨c, e, m, by omega, by omega, rfl⟩)))

/-! ### The handler -/

/-- Everything `tick` can do: refuse, or advance Servo State and name one level (R190, R194). -/
theorem tickOp_cases (h : HostState) :
    ((h.servo = none ∨ h.cfg = none) ∧ ∃ r, tickOp h = .refuse r) ∨
    ∃ sv c, h.servo = some sv ∧ h.cfg = some c ∧
      tickOp h = .ran { h with servo := some sv.tick } [setPulseWord c sv.tick.targetPulse] true := by
  unfold tickOp
  cases hs : h.servo with
  | none => exact .inl ⟨.inl rfl, _, rfl⟩
  | some sv =>
    cases hc : h.cfg with
    | none => exact .inl ⟨.inr rfl, _, rfl⟩
    | some c => exact .inr ⟨sv, c, rfl, rfl, rfl⟩

section RecordMove
variable (h : HostState) (id : Nat) (m : CallbackMove)

@[simp] theorem recordMove_handler : (h.recordMove id m).handler = some (.hostFn id m.memory) := rfl
@[simp] theorem recordMove_servo : (h.recordMove id m).servo = (m.servo.map ServoValue.toServo).or h.servo := rfl
@[simp] theorem recordMove_cfg : (h.recordMove id m).cfg = h.cfg := rfl
@[simp] theorem recordMove_inService : (h.recordMove id m).inService = h.inService := rfl
@[simp] theorem recordMove_halted : (h.recordMove id m).halted = h.halted := rfl
@[simp] theorem recordMove_hpc : (h.recordMove id m).hpc = h.hpc := rfl
@[simp] theorem recordMove_error : (h.recordMove id m).error = h.error := rfl
@[simp] theorem recordMove_phase : (h.recordMove id m).phase = h.phase := rfl
@[simp] theorem recordMove_isrQueue : (h.recordMove id m).isrQueue = h.isrQueue := rfl
end RecordMove

/-- A value that Servo State can be given is within its bounds (R42, R197). -/
theorem toServo_inBounds (v : ServoValue) : v.toServo.InBounds := by
  have lt := v.offset.isLt
  simp only [Servo.InBounds, ServoValue.toServo, Config.pulseMin, Config.pulseMax]
  omega

/-- Everything a move of a host function can do: refuse, or queue one transaction it is resumed after, or return and queue
the disable of the timer or nothing; Servo State is left, given a value of its range, or advanced by a tick from there, and
beside it only the function's memory and the queue change. -/
theorem doMove_cases (id : Nat) (m : CallbackMove) (h : HostState) :
    (∃ r, doMove id m h = .refuse r) ∨
    ∃ sv q, doMove id m h = .ok { h with handler := some (.hostFn id m.memory), servo := sv, isrQueue := q } ∧
      ((∃ w, q = [callbackTxn w]) ∨ ∃ cont, q = cancelTxns cont) ∧
      (sv = h.servo ∨ (∃ v : ServoValue, sv = some v.toServo) ∨
        (∃ s, h.servo = some s ∧ sv = some s.tick) ∨ ∃ v : ServoValue, sv = some v.toServo.tick) := by
  have servo : (m.servo.map ServoValue.toServo).or h.servo = h.servo ∨
      ∃ v : ServoValue, (m.servo.map ServoValue.toServo).or h.servo = some v.toServo := by
    cases m.servo with
    | none => exact .inl rfl
    | some v => exact .inr ⟨v, rfl⟩
  unfold doMove
  dsimp only
  split
  · next w _ => exact .inr ⟨_, _, rfl, .inl ⟨w, rfl⟩, by tauto⟩
  · split
    · exact .inl ⟨_, rfl⟩
    · exact .inr ⟨_, _, rfl, .inl ⟨_, rfl⟩, by tauto⟩
  · rcases tickOp_cases (h.recordMove id m) with ⟨-, r, e⟩ | ⟨sv, c, hs, -, e⟩ <;> rw [e]
    · exact .inl ⟨r, rfl⟩
    · refine .inr ⟨_, _, rfl, .inl ⟨_, rfl⟩, .inr (.inr ?_)⟩
      rw [recordMove_servo] at hs
      rcases servo with s | ⟨v, s⟩ <;> rw [s] at hs
      · exact .inl ⟨sv, hs, rfl⟩
      · exact .inr ⟨v, by rw [Option.some.inj hs]⟩
  · next cont _ => exact .inr ⟨_, _, rfl, .inr ⟨cont, rfl⟩, by tauto⟩

/-- A host function that goes on: no meaning over an unset Servo State, else its move (R42, R205). -/
theorem runHostFn_cases (P : Params) (id memory : Nat) (resp : Option Response) (h : HostState) :
    (h.servo = none ∧ runHostFn P id memory resp h = .refuse .servoUnset) ∨
    ∃ sv, h.servo = some sv ∧
      runHostFn P id memory resp h = doMove id (P.hostFn id (h.callbackView sv memory resp)) h := by
  unfold runHostFn
  cases h.servo with
  | none => exact .inl ⟨rfl, rfl⟩
  | some sv => exact .inr ⟨sv, rfl, rfl⟩

/-- Everything `arm` can do after its read (R206, R207). -/
theorem armChecks_cases (P : Params) (ms : Nat) (cb : Callback) (r : Option Response) (h : HostState) :
    (timerTaken r = true ∧ armChecks P ms cb r h = .ok (h.raiseFatal .schedulerUnavailable)) ∨
    (timerTaken r = false ∧ (cyclesOfMs P ms < 1 ∨ 2 ^ 32 < cyclesOfMs P ms) ∧
      armChecks P ms cb r h = .refuse .periodNotRepresentable) ∨
    (timerTaken r = false ∧ 1 ≤ cyclesOfMs P ms ∧ cyclesOfMs P ms ≤ 2 ^ 32 ∧
      armChecks P ms cb r h = .ok { h with phase := .txns (armTxns (cyclesOfMs P ms) cb) }) := by
  unfold armChecks
  dsimp only
  split
  · next t => exact .inl ⟨t, rfl⟩
  · next t =>
    have t : timerTaken r = false := by simpa using t
    split
    · next n => exact .inr (.inl ⟨t, n, rfl⟩)
    · next n => exact .inr (.inr ⟨t, by omega, by omega, rfl⟩)

/-! ### The end of a cycle -/

/-- A halted host stays as it is (R232). -/
theorem endCycle_halted (P : Params) {h : HostState} (e : h.halted = true) : h.endCycle P = h := by
  simp [HostState.endCycle, e]

/-- What the end of a cycle does to the handler in service: it goes on, or it returns (R236). -/
theorem passIsr_cases (h : HostState) :
    (h.inService = false ∧ h.passIsr = h) ∨
    (h.inService = true ∧ h.isrQueue = [] ∧ h.isrLeft ≤ 1 ∧ h.passIsr = h.leaveIsr) ∨
    (h.inService = true ∧ ¬(h.isrQueue = [] ∧ h.isrLeft ≤ 1) ∧ h.passIsr = { h with isrLeft := h.isrLeft - 1 }) := by
  unfold HostState.passIsr
  cases e : h.inService
  · exact .inl ⟨rfl, by simp⟩
  · by_cases c : h.isrQueue = [] ∧ h.isrLeft ≤ 1
    · exact .inr (.inl ⟨rfl, c.1, c.2, by simp [c]⟩)
    · exact .inr (.inr ⟨rfl, c, by simp [c]⟩)

/-- The records the end of a cycle leaves alone. -/
theorem endCycle_records (P : Params) (h : HostState) :
    (h.endCycle P).cfg = h.cfg ∧ (h.endCycle P).servo = h.servo ∧ (h.endCycle P).handler = h.handler ∧
      (h.endCycle P).halted = h.halted ∧ (h.endCycle P).error = h.error := by
  have key : ∀ g : HostState, g.passIsr.cfg = g.cfg ∧ g.passIsr.servo = g.servo ∧ g.passIsr.handler = g.handler ∧
      g.passIsr.halted = g.halted ∧ g.passIsr.error = g.error := by
    intro g
    rcases passIsr_cases g with ⟨-, e⟩ | ⟨-, -, -, e⟩ | ⟨-, -, e⟩ <;> rw [e] <;> exact ⟨rfl, rfl, rfl, rfl, rfl⟩
  unfold HostState.endCycle
  split
  · exact ⟨rfl, rfl, rfl, rfl, rfl⟩
  · dsimp only
    split
    · have c := key (completeOp P h)
      rw [(completeOp_eq P h).1] at c ⊢
      exact c
    · exact key _

/-- What the end of a cycle leaves of the handler, of a host that is not halted: out of service as before, returned, or
still in service (R236). -/
theorem endCycle_isr (P : Params) {h : HostState} (e : h.halted = false) :
    (h.inService = false ∧ (h.endCycle P).inService = false ∧ (h.endCycle P).isrQueue = h.isrQueue) ∨
    (h.inService = true ∧ h.isrQueue = [] ∧ (h.endCycle P).inService = false ∧ (h.endCycle P).isrQueue = []) ∨
    (h.inService = true ∧ (h.endCycle P).inService = true ∧ (h.endCycle P).isrQueue = h.isrQueue ∧
      (h.endCycle P).isrLeft = h.isrLeft - 1) := by
  have key : ∀ g : HostState, g.inService = h.inService → g.isrQueue = h.isrQueue → g.isrLeft = h.isrLeft →
      (h.inService = false ∧ g.passIsr.inService = false ∧ g.passIsr.isrQueue = h.isrQueue) ∨
      (h.inService = true ∧ h.isrQueue = [] ∧ g.passIsr.inService = false ∧ g.passIsr.isrQueue = []) ∨
      (h.inService = true ∧ g.passIsr.inService = true ∧ g.passIsr.isrQueue = h.isrQueue ∧
        g.passIsr.isrLeft = h.isrLeft - 1) := by
    intro g a b c
    rcases passIsr_cases g with ⟨i, p⟩ | ⟨i, q, -, p⟩ | ⟨i, -, p⟩ <;> rw [p]
    · exact .inl ⟨a ▸ i, i, b⟩
    · exact .inr (.inl ⟨a ▸ i, b ▸ q, rfl, rfl⟩)
    · exact .inr (.inr ⟨a ▸ i, i, b, by rw [c]⟩)
  simp only [HostState.endCycle, e, Bool.false_eq_true, if_false]
  split
  · exact key _ (completeOp_inService P h) (completeOp_isrQueue P h) (completeOp_isrLeft P h)
  · exact key _ rfl rfl rfl

/-! ### Steps without reset -/

/-- A cycle without reset is one clock edge of the block with an allowed write (R100). -/
theorem step_hw_of_no_reset {s t : State} (r : s.resetNow = false) (e : Machine.step s = .next t) :
    ∃ b, BusWrite.Allowed s.hw b ∧ t.hw = clk s.hw b := by
  rcases stepWith_hw e with ⟨p, rest, i, p1, -⟩ | h
  · simp [State.resetNow, i, p1] at r
  · exact h

/-- A cycle with a transaction on the ports. -/
theorem step_of_port {s : State} {w : BusWord} {rest : List PortInput}
    (h : s.inputs = { rst := false, bus := some w } :: rest) : Machine.step s = present w { s with inputs := rest } := by
  simp [Machine.step, stepWith, h, portCycle]

/-- A cycle of the host program. -/
theorem step_of_host {s : State} (h : s.inputs = []) : Machine.step s = hostCycle Config.params s := by
  simp [Machine.step, stepWith, h]

end Sys2Proof.Machine
end

