-- ==== Sys2Proof/Laws/PerInstr.lean ====
section
/-! SUPPORT. Families of facts about every transaction, one lemma per constructor of `Instr`. -/

namespace Sys2Proof.Laws

/-- The row of R84 that a transaction's fields name: `match = (WE << 40) | (ADDR << 32)`, with `WE` 1 exactly for a
write and `ADDR` the register's offset. -/
def OpcodeRow.Statement (i : Instr) : Prop := i.opcode = txnWord i.wdata.isSome i.reg.offset 0

theorem OpcodeRow.rdPwmCsr : OpcodeRow.Statement .rdPwmCsr := rfl
theorem OpcodeRow.wrPwmCsr (v : Word) : OpcodeRow.Statement (.wrPwmCsr v) := by
  simp only [OpcodeRow.Statement, Instr.opcode, Instr.wdata, Instr.reg, Option.isSome_some]
  decide
theorem OpcodeRow.rdPwmDiv : OpcodeRow.Statement .rdPwmDiv := rfl
theorem OpcodeRow.wrPwmDiv (v : Word) : OpcodeRow.Statement (.wrPwmDiv v) := by
  simp only [OpcodeRow.Statement, Instr.opcode, Instr.wdata, Instr.reg, Option.isSome_some]
  decide
theorem OpcodeRow.rdPwmCtr : OpcodeRow.Statement .rdPwmCtr := rfl
theorem OpcodeRow.wrPwmCtr (v : Word) : OpcodeRow.Statement (.wrPwmCtr v) := by
  simp only [OpcodeRow.Statement, Instr.opcode, Instr.wdata, Instr.reg, Option.isSome_some]
  decide
theorem OpcodeRow.rdPwmCc : OpcodeRow.Statement .rdPwmCc := rfl
theorem OpcodeRow.wrPwmCc (v : Word) : OpcodeRow.Statement (.wrPwmCc v) := by
  simp only [OpcodeRow.Statement, Instr.opcode, Instr.wdata, Instr.reg, Option.isSome_some]
  decide
theorem OpcodeRow.rdPwmTop : OpcodeRow.Statement .rdPwmTop := rfl
theorem OpcodeRow.wrPwmTop (v : Word) : OpcodeRow.Statement (.wrPwmTop v) := by
  simp only [OpcodeRow.Statement, Instr.opcode, Instr.wdata, Instr.reg, Option.isSome_some]
  decide
theorem OpcodeRow.rdTmrCsr : OpcodeRow.Statement .rdTmrCsr := rfl
theorem OpcodeRow.wrTmrCsr (v : Word) : OpcodeRow.Statement (.wrTmrCsr v) := by
  simp only [OpcodeRow.Statement, Instr.opcode, Instr.wdata, Instr.reg, Option.isSome_some]
  decide
theorem OpcodeRow.rdTmrCnt : OpcodeRow.Statement .rdTmrCnt := rfl
theorem OpcodeRow.wrTmrCnt (v : Word) : OpcodeRow.Statement (.wrTmrCnt v) := by
  simp only [OpcodeRow.Statement, Instr.opcode, Instr.wdata, Instr.reg, Option.isSome_some]
  decide
theorem OpcodeRow.rdTmrMatch : OpcodeRow.Statement .rdTmrMatch := rfl
theorem OpcodeRow.wrTmrMatch (v : Word) : OpcodeRow.Statement (.wrTmrMatch v) := by
  simp only [OpcodeRow.Statement, Instr.opcode, Instr.wdata, Instr.reg, Option.isSome_some]
  decide
theorem OpcodeRow.rdTmrIntr : OpcodeRow.Statement .rdTmrIntr := rfl
theorem OpcodeRow.wrTmrIntr (v : Word) : OpcodeRow.Statement (.wrTmrIntr v) := by
  simp only [OpcodeRow.Statement, Instr.opcode, Instr.wdata, Instr.reg, Option.isSome_some]
  decide

end Sys2Proof.Laws
end

