-- ==== Sys2Proof/Tests/Slice0.lean ====
section
/-! SUPPORT. Tests against the spec's own vectors (95_test_vectors.md), the smoke tests of WellFormed, and for every
obligation with hypotheses a state or operands that meet them. -/

namespace Sys2Proof.Tests

open Sys2Proof Sys2Proof.Machine
open Sys2Proof.Config (Params)

/-! ### Decoding: one word per row, written out from R84 -/

theorem test_decode_rd_pwm_csr : decodeWord 0x00000000000 = .ok .rdPwmCsr := by decide
theorem test_decode_wr_pwm_csr : decodeWord 0x100FFFFFFFE = .ok (.wrPwmCsr 0xFFFFFFFE) := by decide
theorem test_decode_rd_pwm_div : decodeWord 0x00400000000 = .ok .rdPwmDiv := by decide
theorem test_decode_wr_pwm_div : decodeWord 0x10400001405 = .ok (.wrPwmDiv 0x1405) := by decide
theorem test_decode_rd_pwm_ctr : decodeWord 0x00800000000 = .ok .rdPwmCtr := by decide
theorem test_decode_wr_pwm_ctr : decodeWord 0x10800001234 = .ok (.wrPwmCtr 0x1234) := by decide
theorem test_decode_rd_pwm_cc : decodeWord 0x00C00000000 = .ok .rdPwmCc := by decide
theorem test_decode_wr_pwm_cc : decodeWord 0x10C00010000 = .ok (.wrPwmCc 65536) := by decide
theorem test_decode_rd_pwm_top : decodeWord 0x01000000000 = .ok .rdPwmTop := by decide
theorem test_decode_wr_pwm_top : decodeWord 0x110FFFF9895 = .ok (.wrPwmTop 0xFFFF9895) := by decide
theorem test_decode_rd_tmr_csr : decodeWord 0x01400000000 = .ok .rdTmrCsr := by decide
theorem test_decode_wr_tmr_csr : decodeWord 0x114FFFFFFFD = .ok (.wrTmrCsr 0xFFFFFFFD) := by decide
theorem test_decode_rd_tmr_cnt : decodeWord 0x01800000000 = .ok .rdTmrCnt := by decide
theorem test_decode_wr_tmr_cnt : decodeWord 0x11800000007 = .ok (.wrTmrCnt 7) := by decide
theorem test_decode_rd_tmr_match : decodeWord 0x01C00000000 = .ok .rdTmrMatch := by decide
theorem test_decode_wr_tmr_match : decodeWord 0x11C2540BE3F = .ok (.wrTmrMatch 624999999) := by decide
theorem test_decode_rd_tmr_intr : decodeWord 0x02000000000 = .ok .rdTmrIntr := by decide
theorem test_decode_wr_tmr_intr : decodeWord 0x12000000003 = .ok (.wrTmrIntr 3) := by decide

/-- The hardware ignores the `WDATA` of a read (R80). -/
theorem test_decode_read_ignores_wdata : decodeWord 0x004DEADBEEF = .ok .rdPwmDiv := by decide
/-- B26 and B28: a multiple of 4 without a register (R86). -/
theorem test_reject_unmapped :
    decodeWord 0x02400000000 = .reject (.unmapped 0x24 false) ∧
      decodeWord 0x0FC00000000 = .reject (.unmapped 0xFC false) := by decide
/-- B27 and B29: a misaligned address (R86). -/
theorem test_reject_misaligned :
    decodeWord 0x10200000005 = .reject (.misaligned 0x02 true) ∧
      decodeWord 0x12100000001 = .reject (.misaligned 0x21 true) := by decide
/-- R61: the stored form of `WR TMR_MATCH, 1249999`, lowest byte first. -/
theorem test_decode_bytes : decodeBytes [0xCF, 0x12, 0x13, 0x00, 0x1C, 0x01] = .ok (.wrTmrMatch 1249999) := by decide
theorem test_reject_beyond_format : decodeBytes [0, 0, 0, 0, 0, 0x02] = .reject .beyondFormat := by decide
theorem test_reject_bad_length : decodeBytes [0, 0, 0] = .reject (.badLength 3) := by decide
theorem test_decode_table_word : decodeTableWord 48 0x10C00000B37 = some (.wrPwmCc 2871) := by decide
/-- Bits from `nbits` on count as 0. -/
theorem test_decode_table_word_short : decodeTableWord 40 0x10C00000B37 = some .rdPwmCc := by decide
theorem test_encode : encode (.wrTmrMatch 326) = 0x11C00000146 := by decide

/-- R89 with R82: fields, a literal offset and an idle line become the cycles they stand for. -/
theorem test_assemble :
    assemble [.wr (.named .tmrCsr) (.fields [(.en, 1), (.ie, 1)]), .idle 2, .rd (.literal 0x24),
        .wr (.named .pwmDiv) (.fields [(.intPart, 64), (.frac, 5)])] =
      [some 0x11400000003, none, none, some 0x02400000000, some 0x10400000405] := by decide

/-! ### WellFormed: each check refuses an ill-formed term -/

theorem test_wf_accepts : (Item.wr (.named .tmrCsr) (.fields [(.en, 1), (.ie, 1)])).wf = true := by decide
theorem test_wf_instr : (Instr.wrPwmCc 0xFFFFFFFF).wf = true := by decide
theorem test_wf_refuses_offset : (Item.rd (.literal 256)).wf = false := by decide
theorem test_wf_refuses_wide_value : (Item.wr (.named .pwmCc) (.number 0x100000000)).wf = false := by decide
theorem test_wf_refuses_foreign_field : (Item.wr (.named .pwmCsr) (.fields [(.ie, 1)])).wf = false := by decide
theorem test_wf_refuses_wide_field : (Item.wr (.named .pwmCc) (.fields [(.level, 0x20000)])).wf = false := by decide
theorem test_wf_refuses_field_of_literal : (Item.wr (.literal 0x14) (.fields [(.en, 1)])).wf = false := by decide

/-- Two host functions as callbacks: number 0 reads `TMR_CNT`, writes what it read as the level and asks to be called again;
every other one returns true as often as its memory says, then false. -/
def hostFns : Nat → CallbackView → CallbackMove
  | 0, v =>
    match v.resp with
    | none => { memory := 0, servo := none, act := .access (memRead .tmrCnt) }
    | some r =>
      if v.memory = 0 then { memory := 1, servo := none, act := .access (memWrite .pwmCc r.rdata.toNat) }
      else { memory := 0, servo := none, act := .finish true }
  | _ + 1, v => { memory := v.memory - 1, servo := none, act := .finish (decide (0 < v.memory)) }

/-- Parameters with a clock and a divider; one capable pin, every draw 0. -/
def par (fSys pwmDiv16 : Nat) : Params :=
  { fSys := fSys
    pwmDiv16 := pwmDiv16
    pwmPins := [22]
    lTxn := fun _ => 0
    lIrq := fun _ => 0
    tCb := fun _ => 0
    hostFn := hostFns
    program := Config.bootList 22 0 0 }

theorem test_wf_accepts_params : (par 125000000 1024).wf = true := by decide
theorem test_wf_refuses_no_clock : (par 0 1024).wf = false := by decide
theorem test_wf_refuses_small_divider : (par 125000000 15).wf = false := by decide
theorem test_wf_refuses_large_divider : (par 125000000 4096).wf = false := by decide

/-! ### One transaction on a small state (95_test_vectors.md, 2.1 to 2.3) -/

/-- A state with this block and everything else at reset. -/
def on (h : Pwmt) : State := { State.reset with hw := h }

/-- The block and the response after a transaction. -/
def run1 (i : Instr) (h : Pwmt) : Option (Pwmt × Option Response) :=
  match exec i (on h) with
  | .next t => some (t.hw, t.resp)
  | .fault _ => none
  | .refused _ => none

/-- The answer to an accepted write. -/
def ack : Option Response := some { rdata := 0, err := false }

/-- The answer to a read. -/
def answer (v : Word) : Option Response := some { rdata := v, err := false }

/-- A block with a slice: enable, divider, top, level, counter, accumulator, level in effect. -/
def slice (en : Bool) (d : BitVec 8) (f : BitVec 4) (top : BitVec 16) (cc : BitVec 17) (ctr : BitVec 16) (acc : BitVec 12)
    (act : BitVec 17) : Pwmt :=
  { Pwmt.reset with pwmEn := en, divInt := d, divFrac := f, top := top, cc := cc, ctr := ctr, acc := acc, ccAct := act }

/-- A block with a timer: enable, count, match value, the two flags. -/
def timer (en : Bool) (cnt m : BitVec 32) (ip ovr : Bool) : Pwmt :=
  { Pwmt.reset with tmrEn := en, tcnt := cnt, tmatch := m, ip := ip, ovr := ovr }

/-- B2. -/
theorem test_rd_pwm_div : run1 .rdPwmDiv Pwmt.reset = some (Pwmt.reset, answer 0x10) := by decide
/-- B3. -/
theorem test_rd_pwm_top : run1 .rdPwmTop Pwmt.reset = some (Pwmt.reset, answer 0xFFFF) := by decide
/-- B4. -/
theorem test_rd_tmr_match : run1 .rdTmrMatch Pwmt.reset = some (Pwmt.reset, answer 0xFFFFFFFF) := by decide
/-- B30. -/
theorem test_rd_tmr_intr :
    run1 .rdTmrIntr (timer false 0 9 true false) = some (timer false 0 9 true false, answer 1) := by decide
/-- P3, cycle 6. -/
theorem test_rd_tmr_cnt : run1 .rdTmrCnt (timer true 3 4 false false) = some (timer true 4 4 false false, answer 3) := by
  decide
/-- R113: `TMR_IE` is bit 1 and `TMR_EN` bit 0. -/
theorem test_rd_tmr_csr :
    (run1 .rdTmrCsr { Pwmt.reset with tmrIe := true }).map (·.2) = some (answer 2) := by decide
/-- P2, cycle 10. -/
theorem test_rd_pwm_ctr :
    run1 .rdPwmCtr (slice true 2 0 3 3 3 0 2) = some (slice true 2 0 3 3 3 16 2, answer 3) := by decide
/-- R109, P2 cycle 10: the level written, not the one in effect. -/
theorem test_rd_pwm_cc : (run1 .rdPwmCc (slice true 2 0 3 3 3 0 2)).map (·.2) = some (answer 3) := by decide
/-- R103. -/
theorem test_rd_pwm_csr : (run1 .rdPwmCsr (slice true 2 0 3 3 3 0 2)).map (·.2) = some (answer 1) := by decide
/-- B16, with the unit enabled: state after it follows R69. -/
theorem test_wr_pwm_csr :
    run1 (.wrPwmCsr 0xFFFFFFFE) (slice true 2 0 3 2 0 0 2) = some (slice false 2 0 3 2 0 16 2, ack) := by decide
/-- B7: locked. -/
theorem test_wr_pwm_div_locked :
    run1 (.wrPwmDiv 0x200) (slice true 64 0 3 2 0 0 2) = some (slice true 64 0 3 2 0 16 2, ack) := by decide
/-- B8 and B9: a reserved divider, and an ignored upper bit. -/
theorem test_wr_pwm_div :
    run1 (.wrPwmDiv 0x00F) (slice false 64 0 3 0 0 0 0) = some (slice false 64 0 3 0 0 0 0, ack) ∧
      run1 (.wrPwmDiv 0x1405) (slice false 64 0 3 0 0 0 0) = some (slice false 0x40 5 3 0 0 0 0, ack) := by decide
/-- B14. -/
theorem test_wr_pwm_ctr :
    run1 (.wrPwmCtr 0x1234) (slice true 1 0 9 0 7 0 0) = some (slice true 1 0 9 0 8 0 0, ack) := by decide
/-- B12 and B13. -/
theorem test_wr_pwm_cc :
    (run1 (.wrPwmCc 0x3FFFF) Pwmt.reset).map (·.1.cc) = some 0x1FFFF ∧
      (run1 (.wrPwmCc 65536) Pwmt.reset).map (·.1.cc) = some 0x10000 := by decide
/-- P2, cycle 11 to 12: a write in the cycle of a wrap comes after the latch, which takes the old level (R133). -/
theorem test_wr_pwm_cc_racing_a_wrap :
    run1 (.wrPwmCc 1) (slice true 2 0 3 3 3 16 2) = some (slice true 2 0 3 1 0 0 3, ack) := by decide
/-- B10 and B11. -/
theorem test_wr_pwm_top :
    (run1 (.wrPwmTop 0xFFFF9895) Pwmt.reset).map (·.1.top) = some 0x9895 ∧
      (run1 (.wrPwmTop 1) (slice true 2 0 3 2 0 0 2)).map (·.1.top) = some 3 := by decide
/-- B17. -/
theorem test_wr_tmr_csr :
    run1 (.wrTmrCsr 0xFFFFFFFD) Pwmt.reset = some ({ Pwmt.reset with tmrEn := true }, ack) := by decide
/-- P3, cycle 27: a disable meets a match (R157). -/
theorem test_wr_tmr_csr_racing_a_match :
    run1 (.wrTmrCsr 0) { timer true 4 4 false false with tmrIe := true } = some (timer false 0 4 true false, ack) := by
  decide
/-- B15. -/
theorem test_wr_tmr_cnt :
    run1 (.wrTmrCnt 7) (timer true 7 99 false false) = some (timer true 8 99 false false, ack) := by decide
/-- B18, and P3 cycle 28. -/
theorem test_wr_tmr_match :
    (run1 (.wrTmrMatch 9) (timer true 0 4 false false)).map (·.1.tmatch) = some 4 ∧
      (run1 (.wrTmrMatch 9) (timer false 0 4 true false)).map (·.1.tmatch) = some 9 := by decide
/-- B19, B20, B21: no match in the cycle. -/
theorem test_wr_tmr_intr :
    run1 (.wrTmrIntr 1) (timer false 0 9 true true) = some (timer false 0 9 false true, ack) ∧
      run1 (.wrTmrIntr 2) (timer false 0 9 true true) = some (timer false 0 9 true false, ack) ∧
      run1 (.wrTmrIntr 0) (timer false 0 9 true true) = some (timer false 0 9 true true, ack) := by decide
/-- B22, B24, B25: with a match in the cycle. -/
theorem test_wr_tmr_intr_with_match :
    run1 (.wrTmrIntr 1) (timer true 9 9 true false) = some (timer true 0 9 true false, ack) ∧
      run1 (.wrTmrIntr 2) (timer true 9 9 true true) = some (timer true 0 9 true true, ack) ∧
      run1 (.wrTmrIntr 3) (timer true 9 9 true true) = some (timer true 0 9 true false, ack) := by decide
/-- B23 with T7 and T9: an idle cycle with a match. -/
theorem test_idle_match :
    idleClk (timer true 9 9 true false) = timer true 0 9 true true ∧
      idleClk (timer true 0 0 false false) = timer true 0 0 true false ∧
      idleClk (timer true 0xFFFFFFFF 0xFFFFFFFF false false) = timer true 0 0xFFFFFFFF true false := by decide
/-- T2 and T10: a disabled timer has no match, and its flags stay. -/
theorem test_idle_timer_disabled :
    idleClk (timer false 0 0 false false) = timer false 0 0 false false ∧
      idleClk (timer false 5 9 true true) = timer false 0 9 true true := by decide
/-- W2, W3, W4, W5. -/
theorem test_idle_slice :
    idleClk (slice false 64 0 39061 976 17 48 5) = slice false 64 0 39061 976 0 0 976 ∧
      idleClk (slice true 64 0 39061 976 975 992 976) = slice true 64 0 39061 976 975 1008 976 ∧
      idleClk (slice true 64 0 39061 976 975 1008 976) = slice true 64 0 39061 976 976 0 976 ∧
      idleClk (slice true 64 0 39061 2871 39061 1008 976) = slice true 64 0 39061 2871 0 0 2871 := by decide
/-- W6, W8, W9. -/
theorem test_idle_slice_corners :
    idleClk (slice true 1 0 0 1 0 0 1) = slice true 1 0 0 1 0 0 1 ∧
      idleClk (slice true 255 15 65535 65536 65535 4080 65536) = slice true 255 15 65535 65536 0 1 65536 ∧
      idleClk (slice true 2 8 9 3 4 32 3) = slice true 2 8 9 3 5 8 3 := by decide
/-- The `pwm_out` column of W2, W3, W5, W6, W7. -/
theorem test_pwm_out :
    (slice false 64 0 39061 976 17 48 5).pwmOut = false ∧ (slice true 64 0 39061 976 975 992 976).pwmOut = true ∧
      (slice true 64 0 39061 976 976 0 976).pwmOut = false ∧ (slice true 64 0 39061 2871 39061 1008 976).pwmOut = false ∧
      (slice true 1 0 0 1 0 0 1).pwmOut = true ∧ (slice true 1 0 0 0 0 0 0).pwmOut = false := by decide
/-- B29: an illegal transaction clears nothing and answers `(0, 1)`. -/
theorem test_illegal :
    ∃ t, present 0x12100000001 (on (timer false 0 9 true true)) = .next t ∧ t.hw = timer false 0 9 true true ∧
      t.resp = some { rdata := 0, err := true } ∧ t.host.halted = true ∧
      t.host.error = some (.busError 0x21 true) := ⟨_, rfl, by decide, by decide, by decide, by decide⟩
/-- A word that the outside presents is the first step after reset. -/
theorem test_step_runs_fetched_word :
    Machine.step (State.reset.withFetchWord 48 0x10400000400) = exec (.wrPwmDiv 0x400) State.reset := rfl

/-! ### Host operations (95_test_vectors.md, 2.4 to 2.6 and part 3) -/

/-- S6 and the table of 2.4 at the default parameters. -/
theorem test_levels :
    periodCountsOf (par 125000000 1024) = 39062 ∧ [-1, 0, 500, 1470, 2400, 20000, 20001].map (levelOf · 39062) =
      [0, 0, 976, 2871, 4687, 39062, 39062] := by decide
/-- 2.4: `wrap` at the ends of the range, and the fractional dividers. -/
theorem test_wraps :
    wrapOf (par 209718399 1024) = 65535 ∧ wrapOf (par 209718400 1024) = 65536 ∧ wrapOf (par 3200 1024) = 0 ∧
      wrapOf (par 3199 1024) = -1 ∧ wrapOf (par 125000000 610) = 65572 ∧ wrapOf (par 125000000 640) = 62499 := by decide
/-- 2.6: the periods of `arm`. -/
theorem test_arm_periods :
    cyclesOfMs (par 125000000 1024) 10 = 1250000 ∧ cyclesOfMs (par 32768 1024) 10 = 327 ∧
      cyclesOfMs (par 99 1024) 10 = 0 := by decide
/-- P1: the words of `configure` and of `set_pulse(1470)`. -/
theorem test_configure_words :
    (configureTxns (par 125000000 1024) 22).map PendingTxn.word = [0x10400000400, 0x11000009895, 0x10000000001] ∧
      setPulseWord (configOf (par 125000000 1024) 22) 1470 = 0x10C00000B37 := by decide
/-- P4, cycles 5 to 7: the words of `arm`. -/
theorem test_arm_words :
    (armTxns 10000 .tick).map PendingTxn.word = [0x11C0000270F, 0x12000000003, 0x11400000003] := by decide
/-- K1, K3, K4, K5, K7, K8. -/
theorem test_sweep_ticks :
    Servo.tick ⟨500, .up⟩ = ⟨505, .up⟩ ∧ Servo.tick ⟨2395, .up⟩ = ⟨2400, .down⟩ ∧
      Servo.tick ⟨2400, .down⟩ = ⟨2395, .down⟩ ∧ Servo.tick ⟨505, .down⟩ = ⟨500, .up⟩ ∧
      Servo.tick ⟨2397, .up⟩ = ⟨2400, .down⟩ ∧ Servo.tick ⟨503, .down⟩ = ⟨500, .up⟩ := by decide
/-- P5: the boot that fails, in its first cycle. -/
theorem test_fatal_boot :
    ∃ t, stepWith (par 250000000 1024) State.reset = .next t ∧ t.hw = Pwmt.reset ∧ t.resp = none ∧ t.host.hpc = 1 ∧
      t.host.halted = true ∧ t.host.cfg = none ∧ t.host.error = some (.wrapOutOfRange 78124) :=
  ⟨_, rfl, by decide, by decide, by decide, by decide, by decide, by decide⟩
/-- P4, cycle 0: the first step of the boot presents `WR PWM_DIV, 0x10`. -/
theorem test_first_boot_cycle :
    ∃ t, stepWith (par 1000000 16) State.reset = .next t ∧ t.resp = ack ∧ t.host.hpc = 1 ∧
      t.host.phase.queue.map PendingTxn.word = [0x11000004E1F, 0x10000000001] :=
  ⟨_, rfl, by decide, by decide, by decide⟩
/-- R225: the codes. -/
theorem test_error_codes :
    [(HostError.pinUnsupported 3).kind.code, HostError.schedulerUnavailable.kind.code, ErrorKind.outOfRangePulse.code,
      (HostError.busError 2 true).kind.code] = [1, 2, 3, 4] := by decide

/-! ### Witnesses: a state and operands that meet the hypotheses of each obligation, clause by clause -/

/-- A state whose next cycle the outside drives. -/
def driven (h : Pwmt) (rst : Bool) (b : Option BusWord) : State := { on h with inputs := [{ rst := rst, bus := b }] }

/-- The next state of a step, where there is one. -/
def nextOf (s : State) : Option State :=
  match Machine.step s with
  | .next t => some t
  | .fault _ => none
  | .refused _ => none

theorem witness_ResetInputResetsBlockAndHost :
    (driven (slice true 2 0 3 2 1 0 2) true (some 0x10000000001)).resetNow = true := rfl
theorem witness_DecodeOfEncodeIsIdentity :
    (Instr.wrTmrMatch 0xFFFFFFFF).wf = true ∧ Instr.rdPwmCsr.wf = true := by decide
theorem witness_DecodedWordHasItsRow :
    decodeWord 0x12000000003 = .ok (.wrTmrIntr 3) ∧ (Instr.wrTmrIntr 3).wdata.isSome = true ∧
      decodeWord 0x020DEADBEEF = .ok .rdTmrIntr ∧ Instr.rdTmrIntr.wdata = none := by decide
theorem witness_PresentedTransactionRunsItsMeaning :
    (driven Pwmt.reset false (some 0x12000000003)).inputs = [{ rst := false, bus := some 0x12000000003 }] ∧
      decodeWord 0x12000000003 = .ok (.wrTmrIntr 3) := by decide

/-- A handler in service with one level to present. -/
def inHandler : State :=
  { on Pwmt.reset with
    host := { HostState.reset with
      inService := true, isrQueue := [plainTxn 0x10C000001F9], isrGap := some 0, isrLeft := 3 } }

theorem witness_HostTransactionRunsItsMeaning :
    inHandler.inputs = [] ∧ decodeWord 0x10C000001F9 = .ok (.wrPwmCc 505) ∧
      ∃ s', hostMove Config.params inHandler = .present (plainTxn 0x10C000001F9) s' := ⟨rfl, by decide, _, rfl⟩
theorem witness_IllegalTransactionIsBusError :
    (driven Pwmt.reset false (some 0x02400000000)).inputs = [{ rst := false, bus := some 0x02400000000 }] ∧
      decodeWord 0x02400000000 = .reject (.unmapped 0x24 false) ∧
      decodeWord 0x10200000005 = .reject (.misaligned 0x02 true) := by decide
/-- The host's own illegal access: a host function in service reads `@0x24`. -/
theorem witness_IllegalTransactionIsBusError_host :
    let s := { inHandler with host := { inHandler.host with isrQueue := [callbackTxn 0x02400000000] } }
    s.inputs = [] ∧ decodeWord 0x02400000000 = .reject (.unmapped 0x24 false) ∧
      ∃ s', hostMove Config.params s = .present (callbackTxn 0x02400000000) s' := ⟨rfl, by decide, _, rfl⟩

/-- A host stopped by a recorded fault. -/
def stopped : State := { on Pwmt.reset with host := HostState.reset.raiseFatal .schedulerUnavailable }

theorem witness_HaltedHostLeavesHardwareRunning : stopped.inputs = [] ∧ stopped.host.halted = true := ⟨rfl, rfl⟩
theorem witness_RecordedErrorIsNeverCleared :
    stopped.resetNow = false ∧ stopped.host.error = some .schedulerUnavailable ∧ (nextOf stopped).isSome = true :=
  ⟨rfl, rfl, rfl⟩
theorem witness_WrPwmDivIsLockedAndRefusesZero :
    ((on Pwmt.reset).hw.pwmEn = false ∧ (0x1F : Word).toNat / 16 % 256 ≠ 0) ∧
      ¬((on Pwmt.reset).hw.pwmEn = false ∧ (0x0F : Word).toNat / 16 % 256 ≠ 0) := by decide
theorem witness_WrittenValueReadsBackNextCycle :
    (on Pwmt.reset).hw.pwmEn = false ∧ (on Pwmt.reset).hw.tmrEn = false ∧ (0x10 : Word).toNat / 16 % 256 ≠ 0 := by decide
theorem witness_OnlyItsWriteChangesAnElement :
    (∃ t, exec .rdTmrIntr (on Pwmt.reset) = .next t) ∧ (∀ v, Instr.rdTmrIntr ≠ .wrPwmCsr v) ∧
      (∀ v, Instr.rdTmrIntr ≠ .wrPwmDiv v) ∧ (∀ v, Instr.rdTmrIntr ≠ .wrPwmTop v) ∧
      (∀ v, Instr.rdTmrIntr ≠ .wrPwmCc v) ∧ (∀ v, Instr.rdTmrIntr ≠ .wrTmrCsr v) ∧
      (∀ v, Instr.rdTmrIntr ≠ .wrTmrMatch v) := by
  refine ⟨⟨_, rfl⟩, ?_, ?_, ?_, ?_, ?_, ?_⟩ <;> intro v e <;> cases e
theorem witness_HardwareElementsIgnoreTheBus : ∃ t, exec (.wrPwmCc 2) (on (slice true 2 0 3 2 3 16 1)) = .next t :=
  ⟨_, rfl⟩
/-- A disabled slice, a cycle one short of a counter tick, a wrap, and a count, each in the invariant. -/
theorem witness_PwmUnitInEachCycle :
    (∃ t, exec .rdPwmCtr (on (slice true 2 8 9 3 4 32 3)) = .next t) ∧
    ((slice false 2 8 9 3 4 32 3).Inv ∧ (slice false 2 8 9 3 4 32 3).pwmEn = false) ∧
    ((slice true 2 8 9 3 4 23 3).Inv ∧ (slice true 2 8 9 3 4 23 3).acc.toNat + 16 < (slice true 2 8 9 3 4 23 3).div16) ∧
    ((slice true 2 8 9 3 9 24 3).Inv ∧ (slice true 2 8 9 3 9 24 3).div16 ≤ (slice true 2 8 9 3 9 24 3).acc.toNat + 16 ∧
      (slice true 2 8 9 3 9 24 3).ctr = (slice true 2 8 9 3 9 24 3).top) ∧
    ((slice true 2 8 9 3 8 24 3).Inv ∧ (slice true 2 8 9 3 8 24 3).div16 ≤ (slice true 2 8 9 3 8 24 3).acc.toNat + 16 ∧
      (slice true 2 8 9 3 8 24 3).ctr ≠ (slice true 2 8 9 3 8 24 3).top) :=
  ⟨⟨_, rfl⟩, by decide, by decide, by decide, by decide⟩
theorem witness_TimerUnitInEachCycle :
    (∃ t, exec .rdTmrCnt (on (timer true 9 9 false false)) = .next t) ∧ (timer false 5 9 true true).tmrEn = false ∧
      (timer true 9 9 false false).tcnt = (timer true 9 9 false false).tmatch ∧
      (timer true 8 9 false false).tcnt ≠ (timer true 8 9 false false).tmatch := ⟨⟨_, rfl⟩, by decide, by decide, by decide⟩
theorem witness_FlagsWithoutAClear :
    (∀ v, Instr.rdTmrIntr ≠ .wrTmrIntr v) ∧ ∃ t, exec .rdTmrIntr (on (timer true 9 9 true false)) = .next t :=
  ⟨(fun _ e => by cases e), _, rfl⟩
theorem witness_MatchIsNeverLost :
    (driven (timer true 9 9 true false) false (some 0x12000000001)).resetNow = false ∧
      (driven (timer true 9 9 true false) false (some 0x12000000001)).hw.matchNow = true ∧
      (nextOf (driven (timer true 9 9 true false) false (some 0x12000000001))).isSome = true := ⟨rfl, by decide, rfl⟩
theorem witness_OverrunOnlyByAMergedMatch :
    (timer true 9 9 true false).ovr = false ∧
      (nextOf (driven (timer true 9 9 true false) false none)).map (·.hw.ovr) = some true := by decide
/-- A latch at a wrap, and no latch one tick before it. -/
theorem witness_LevelIsLatchedAtTheWrapOnly :
    (driven (slice true 2 0 3 3 3 16 2) false none).resetNow = false ∧
      (nextOf (driven (slice true 2 0 3 3 3 16 2) false none)).map (·.hw.ccAct) = some 3 ∧
      (nextOf (driven (slice true 2 0 3 3 2 16 2) false none)).map (·.hw.ccAct) = some 2 := by decide
theorem witness_ConfigurationIsLockedWhileEnabled :
    (nextOf (driven (slice true 2 0 3 3 3 16 2) false (some 0x11000000001))).map (·.hw.pwmEn) = some true ∧
      (nextOf (driven (timer true 0 9 false false) false (some 0x11C00000001))).map (·.hw.tmrEn) = some true := by decide
theorem witness_OutputIsTheStrictCompare :
    (slice true 1 0 0 0 0 0 0).ccAct = 0 ∧ (slice true 1 0 0 1 0 0 1).Inv ∧ (slice true 1 0 0 1 0 0 1).pwmEn = true ∧
      (slice true 1 0 0 1 0 0 1).top.toNat < (slice true 1 0 0 1 0 0 1).ccAct.toNat := by decide
theorem witness_IdleBlockIsAFixedPoint :
    let h := slice false 2 8 9 3 0 0 3
    h.pwmEn = false ∧ h.tmrEn = false ∧ h.ctr = 0 ∧ h.acc = 0 ∧ h.tcnt = 0 ∧ h.ccAct = h.cc := by decide
theorem witness_EnableStartsAFrame :
    (on (slice false 2 0 3 2 1 16 0)).hw.pwmEn = false ∧ (1 : Word).toNat % 2 = 1 := by decide
theorem witness_DisableRacingAMatchKeepsTheEvent :
    (on (timer true 9 9 false false)).hw.matchNow = true ∧ (2 : Word).toNat % 2 = 0 := by decide
/-- The reset state, in the invariant, with an idle cycle driven. -/
theorem witness_EveryStepKeepsTheInvariant :
    (driven Pwmt.reset false none).Inv ∧ (nextOf (driven Pwmt.reset false none)).isSome = true := by
  refine ⟨⟨by decide, ?_⟩, rfl⟩
  constructor <;> simp [driven, on, State.reset, HostState.reset, Phase.queue]
theorem witness_PwmCounterClosedForm :
    let s := on (slice true 2 8 3 2 0 0 1)
    s.hw.Inv ∧ s.hw.pwmEn = true ∧ s.hw.ctr = 0 ∧ s.hw.acc = 0 ∧
      ∀ b ∈ [none, some (0x10C00000002 : BusWord), some 0x02400000000, some 0x10000000001], keepsSlice b = true :=
  ⟨by decide, rfl, rfl, rfl, by
    simp only [List.forall_mem_cons, List.not_mem_nil, false_implies, implies_true, and_true]
    decide⟩
theorem witness_TimerPeriodIsExact :
    let s := on (timer true 0 1 false false)
    s.hw.tmrEn = true ∧ s.hw.tcnt = 0 ∧
      (∀ b ∈ [none, some (0x12000000003 : BusWord)], keepsTimer b = true) ∧
      (0 < 2 ∧ 2 % (s.hw.tmatch.toNat + 1) = 0) :=
  ⟨rfl, rfl, by
    simp only [List.forall_mem_cons, List.not_mem_nil, false_implies, implies_true, and_true]
    decide, by decide⟩
theorem witness_FrameIsHighForItsLevel :
    let s := on (slice true 2 0 3 2 0 0 1)
    s.hw.Inv ∧ s.hw.pwmEn = true ∧ s.hw.divFrac = 0 ∧ s.hw.ctr = 0 ∧ s.hw.acc = 0 ∧
      (∀ b ∈ List.replicate 8 (some (0x10C00000003 : BusWord)), keepsSlice b = true) ∧
      (List.replicate 8 (some (0x10C00000003 : BusWord))).length = (s.hw.top.toNat + 1) * s.hw.divInt.toNat ∧
      highCycles (List.replicate 8 (some 0x10C00000003)) s = 2 :=
  ⟨by decide, rfl, rfl, rfl, rfl, fun b hb => by rw [List.eq_of_mem_replicate hb]; decide, by decide, by decide⟩
theorem witness_LevelIsClampedAndMonotone :
    (-1 : Int) ≤ 0 ∧ (0 : Int) ≤ 20000 ∧ (20000 : Int) ≤ 20000 ∧ 65536 ≤ 65536 ∧ levelOf 20000 65536 = 65536 := by decide
theorem witness_PulseShortfallIsBounded :
    (par 100000000 1024).wf = true ∧ 50 * (par 100000000 1024).pwmDiv16 ∣ 16 * (par 100000000 1024).fSys :=
  ⟨by decide, 31250, rfl⟩
theorem witness_PeriodIsShortByLessThanATick :
    (par 125000000 1024).wf = true ∧ (par 125000000 1024).pwmDiv16 = 16 * 64 := by decide
/-- Both ends of the range, and one past each. -/
theorem witness_ConfigureSucceedsExactlyInRange :
    (par 3200 1024).pwmDiv16 = 1024 ∧ HostState.reset.cfg = none ∧ 22 ∈ (par 3200 1024).pwmPins ∧
      configureOp (par 3200 1024) 22 50 HostState.reset = .start (.txns (configureTxns (par 3200 1024) 22)) ∧
      configureOp (par 3199 1024) 22 50 HostState.reset = .fatal (.wrapOutOfRange (-1)) ∧
      configureOp (par 209718399 1024) 22 50 HostState.reset = .start (.txns (configureTxns (par 209718399 1024) 22)) ∧
      configureOp (par 209718400 1024) 22 50 HostState.reset = .fatal (.wrapOutOfRange 65536) :=
  ⟨rfl, rfl, by decide, rfl, rfl, rfl, rfl⟩
/-- A configured host, for the first check; reset meets the others; the wrap fails at 209718400 Hz. -/
theorem witness_ConfigureChecksInOrder :
    ({ HostState.reset with cfg := some ⟨22, 1024, 39061, 39062⟩ } : HostState).cfg ≠ none ∧ HostState.reset.cfg = none ∧
      60 ≠ 50 ∧ 23 ∉ (par 209718400 1024).pwmPins ∧ 22 ∈ (par 209718400 1024).pwmPins ∧
      (wrapOf (par 209718400 1024) < 0 ∨ 65535 < wrapOf (par 209718400 1024)) ∧ wrapOf (par 3199 1024) < 0 := by decide
theorem witness_ConfigureWritesDividerTopEnable :
    (par 209718399 1024).wf = true ∧ 0 ≤ wrapOf (par 3200 1024) ∧ wrapOf (par 209718399 1024) ≤ 65535 ∧
      0 ≤ wrapOf (par 209718399 1024) ∧ (on Pwmt.reset).hw.pwmEn = false := by decide
theorem witness_SetPulseWritesItsLevel :
    PwmConfig.Sound ⟨22, 1024, 65535, 65536⟩ ∧ HostState.reset.cfg = none ∧
      ({ HostState.reset with cfg := some ⟨22, 1024, 65535, 65536⟩ } : HostState).cfg =
        some ⟨22, 1024, 65535, 65536⟩ := by decide
theorem witness_SweepTickSaturatesAndReverses :
    (2400 : Int) ≤ 2395 + 5 ∧ (2394 : Int) + 5 < 2400 ∧ (505 : Int) - 5 ≤ 500 ∧ (500 : Int) < 506 - 5 := by decide

/-- A host whose sweep runs, configured on a 1 MHz clock. -/
def sweepHost : HostState :=
  { HostState.reset with
    cfg := some ⟨22, 16, 19999, 20000⟩, servo := some Servo.initial, handler := some .tick, hpc := 10, irqGap := some 0 }

/-- A taken timer; periods of 0, 1, 2^32 and 2^32 + 1 cycles. -/
theorem witness_ArmProgramsThePeriod :
    (3 : Word).toNat % 2 = 1 ∧ (0 : Word).toNat % 2 = 0 ∧ 10 * (par 99 16).fSys / 1000 < 1 ∧
      10 * (par 100 16).fSys / 1000 = 1 ∧ 1 * (par (4294967296 * 1000) 16).fSys / 1000 = 2 ^ 32 ∧
      2 ^ 32 < 1 * (par (4294967297 * 1000) 16).fSys / 1000 ∧ (on Pwmt.reset).hw.tmrEn = false := by decide

/-- The timer's request is up while main idles. -/
def requested : State := { on { timer true 2 9 true false with tmrIe := true } with host := sweepHost }

theorem witness_HandlerStartsOnlyOnRequest :
    requested.inputs = [] ∧ requested.host.inService = false ∧
      ∃ t, Machine.step requested = .next t ∧ t.host.inService = true := ⟨rfl, rfl, _, rfl, rfl⟩
/-- A request whose latency has two cycles to go, in main's wait. -/
theorem witness_HandlerStartsOnlyOnRequest_latency :
    let s := { requested with host := { sweepHost with irqGap := some 2, phase := .waiting 5 } }
    s.inputs = [] ∧ s.host.halted = false ∧ s.host.inService = false ∧ s.hw.irq = true ∧ s.host.irqGap = some (1 + 1) ∧
      (nextOf s).isSome = true := ⟨rfl, rfl, rfl, rfl, rfl, rfl⟩
/-- V12: a request with Servo State unset is refused when the handler is due. -/
theorem test_isr_servo_unset :
    Machine.step { requested with host := { sweepHost with servo := none } } = .refused .servoUnset := rfl

/-- A handler that has presented all it had, `left` cycles before its duration has passed. -/
def finishing (left : Nat) : State :=
  { on Pwmt.reset with host := { HostState.reset with inService := true, isrLeft := left } }

/-- In its last cycle, and with one more to go. -/
theorem witness_MainIsFrozenDuringService_return :
    (∀ n, (finishing n).Inv) ∧ (finishing 1).inputs = [] ∧ (finishing 1).host.halted = false ∧
      (finishing 1).host.inService = true ∧ (finishing 1).host.isrQueue = [] ∧ (finishing 1).host.isrLeft ≤ 1 ∧
      1 < (finishing 2).host.isrLeft := by
  refine ⟨fun n => ⟨show Pwmt.reset.Inv by decide, ?_⟩, rfl, rfl, rfl, rfl, by decide, by decide⟩
  constructor <;> simp [finishing, HostState.reset, Phase.queue]
theorem witness_MainIsFrozenDuringService :
    inHandler.Inv ∧ inHandler.inputs = [] ∧ inHandler.host.inService = true ∧ (nextOf inHandler).isSome = true := by
  refine ⟨⟨by decide, ?_⟩, rfl, rfl, rfl⟩
  constructor <;> simp [inHandler, on, State.reset, HostState.reset, Phase.queue, plainTxn, AfterTxn.isrOk]
theorem witness_HandlerAcknowledgesThenTicks :
    requested.inputs = [] ∧ requested.host.halted = false ∧ requested.host.inService = false ∧
      requested.hw.irq = true ∧ requested.host.irqGap = some 0 ∧ requested.host.handler = some .tick ∧
      requested.host.servo = some Servo.initial ∧ requested.host.cfg = some ⟨22, 16, 19999, 20000⟩ := by decide

/-- What is queued after a move of the handler, and whether the function's memory is `memory`. -/
def queued (memory : Nat) : HostResult → Option (List BusWord × Bool)
  | .ok h => some (h.isrQueue.map PendingTxn.word, h.handler.any fun c => match c with
    | .tick => false
    | .hostFn _ m => m == memory)
  | .refuse _ => none

/-- R205: a function whose write depends on what it read. -/
theorem test_host_function_reads :
    queued 0 (isrBody (par 1000000 16) { sweepHost with handler := some (.hostFn 0 0) }) = some ([0x01800000000], true) ∧
      queued 1 (resumeBody (par 1000000 16) (answer 7) { sweepHost with handler := some (.hostFn 0 0) }) =
        some ([0x10C00000007], true) ∧
      queued 0 (resumeBody (par 1000000 16) ack { sweepHost with handler := some (.hostFn 0 1) }) = some ([], true) := by
  decide
/-- R210: a function that fires once more and then returns false. -/
theorem test_host_function_counts :
    queued 0 (isrBody (par 1000000 16) { sweepHost with handler := some (.hostFn 1 1) }) = some ([], true) ∧
      queued 0 (isrBody (par 1000000 16) { sweepHost with handler := some (.hostFn 1 0) }) =
        some ([0x11400000000], true) := by decide
/-- A read of the function completes in its cycle and the write is queued with the counter's pre-state value (R69). -/
theorem test_host_function_step :
    ∃ t, stepWith (par 1000000 16) { on (timer true 7 99 false false) with
        host := { sweepHost with
          handler := some (.hostFn 0 0), inService := true, isrGap := some 0, isrLeft := 9
          isrQueue := [callbackTxn (memRead .tmrCnt)] } } = .next t ∧ t.host.inService = true ∧
      t.host.isrQueue = [callbackTxn 0x10C00000007] := ⟨_, rfl, by decide, by decide⟩

/-- A handler that is going to disable the timer. -/
def cancelling : State :=
  { on { timer true 2 9 true false with tmrIe := true } with
    host := { sweepHost with
      handler := some (.hostFn 1 0), inService := true, isrGap := some 0
      isrQueue := [{ word := memWrite .tmrCsr 0, after := .forgetHandler }] } }

theorem witness_CancelDisablesTheTimer :
    cancelling.host.handler = some (.hostFn 1 0) ∧ cancelling.host.servo = some Servo.initial ∧
      ({ cancelling.host with servo := none } : HostState).servo = none ∧
      ((par 1000000 16).hostFn 1 (cancelling.host.callbackView Servo.initial 0 none)).act = .finish false ∧
      ((par 1000000 16).hostFn 1 (cancelling.host.callbackView Servo.initial 1 none)).act = .finish true ∧
      ((par 1000000 16).hostFn 0 (cancelling.host.callbackView Servo.initial 0 none)).act = .access 0x01800000000 ∧ cancelling.inputs = [] ∧ cancelling.host.halted = false ∧
      cancelling.host.inService = true ∧
      cancelling.host.isrQueue = [{ word := memWrite .tmrCsr 0, after := .forgetHandler }] ∧
      cancelling.host.isrGap = some 0 := by decide

/-- The idle loop before its first wait, and in it. -/
def idling (p : Phase) : State := { on (timer true 2 9 false false) with host := { sweepHost with phase := p } }

theorem witness_MainIsSilentAfterBoot :
    (idling .ready).inputs = [] ∧ (idling .ready).host.halted = false ∧ (idling .ready).host.inService = false ∧
      (idling .ready).hw.irq = false ∧ (idling .ready).host.hpc = 10 ∧ (idling .ready).host.phase = .ready ∧
      (idling (.waiting 0)).host.phase = .waiting 0 := by decide
theorem witness_WaitPresentsNothing :
    (idling (.waiting 1)).inputs = [] ∧ (idling (.waiting 1)).host.halted = false ∧
      (idling (.waiting 1)).host.inService = false ∧ (idling (.waiting 1)).hw.irq = false ∧
      (idling (.waiting 1)).host.phase = .waiting (0 + 1) := by decide
/-- The reset state, at the default clock and divider. -/
theorem witness_BootProgramNeverGoesWrong :
    (par 125000000 1024).wf = true ∧ (par 125000000 1024).program = Config.bootList 22 0 0 ∧ 100 ≤ (par 125000000 1024).fSys ∧
      BootInv (par 125000000 1024) 22 State.reset :=
  ⟨by decide, rfl, by decide, rfl, .inl ⟨rfl, rfl, .inl ⟨⟨rfl, rfl, rfl⟩, .inl ⟨.inl rfl, rfl⟩, ⟨rfl, rfl⟩, rfl, rfl⟩⟩⟩

/-- The demo before its second level, at item 4. -/
def demonstrating : State :=
  { on Pwmt.reset with host := { HostState.reset with cfg := some (configOf (par 125000000 1024) 22), hpc := 4 } }

theorem witness_BootProgramNeverGoesWrong_demo :
    BootInv (par 125000000 1024) 22 demonstrating ∧ demonstrating.host.halted = false ∧
      demoPulse demonstrating.host.hpc = some 1470 :=
  ⟨⟨rfl, .inl ⟨rfl, rfl, .inr (.inl
    ⟨⟨rfl, rfl, rfl⟩, by decide, .inl ⟨1470, rfl, .inl rfl⟩, ⟨rfl, rfl⟩, rfl, rfl⟩)⟩⟩, rfl, rfl⟩

end Sys2Proof.Tests
end

/-! PROOFS. A legal transaction, whoever presents it, runs its row's meaning, and that meaning completes in its cycle
(00_scope.md R5, R11; 40_clock_step_and_bus.md R100, R102). -/

namespace Sys2Proof.Machine

/-! ### What presenting a word is -/

/-- A word that decodes is run as its row's meaning (R84, R100). -/
theorem present_of_decode_ok {w : BusWord} {i : Instr} (d : decodeWord w = .ok i) (s : State) :
    present w s = exec i s := by
  simp only [present, d]

/-- A cycle of the host program whose move presents a transaction: that transaction, then what the host does after
it. -/
theorem step_of_host_present {s s' : State} {x : PendingTxn} (noInput : s.inputs = [])
    (move : hostMove Config.params s = .present x s') :
    Machine.step s = andFinish Config.params x.after (present x.word s') := by
  rw [step_of_host noInput]
  simp only [hostCycle, move]

/-! ### The statements -/

/-- Settles O12: whatever a row writes, its cycle is one clock edge with the response of R102, and a clock edge leaves
the host alone. -/
theorem everyTransactionCompletes : Obligations.EveryTransactionCompletes := by
  intro i s
  obtain ⟨w, -, completes⟩ := exec_inv i s
  refine ⟨_, completes, rfl, ?_⟩
  cases data : i.wdata with
  | none => simp [State.cycle]
  | some v => simp [State.cycle]

/-- Settles O7: the ports present the word, and the word decodes. -/
theorem presentedTransactionRunsItsMeaning : Obligations.PresentedTransactionRunsItsMeaning := by
  intro s w rest i ports decodes
  calc Machine.step s
    _ = present w { s with inputs := rest } := step_of_port ports
    _ = exec i { s with inputs := rest } := present_of_decode_ok decodes _

/-- Settles O8: the host's move presents the word, and the word decodes; the host's end of the cycle is untouched. -/
theorem hostTransactionRunsItsMeaning : Obligations.HostTransactionRunsItsMeaning := by
  intro s s' x i noInput move decodes
  calc Machine.step s
    _ = andFinish Config.params x.after (present x.word s') := step_of_host_present noInput move
    _ = andFinish Config.params x.after (exec i s') := by rw [present_of_decode_ok decodes]

end Sys2Proof.Machine

/-! PROOFS. The block and the host records at reset and over every step: the reset table, the outputs, the locks, and
the invariant of the whole system (10_state.md R33 to R35, R41 to R45; 44_sweep_controller.md R197). -/

namespace Sys2Proof.Machine

open Config (Params)

/-! ### The block over a clock edge -/

section ClockEdge
variable {h : Pwmt} {w : BusWrite}

/-- The divider after an edge is at least 1: a write never takes 0 (R44 a, R106). -/
theorem clk_divInt_pos (allowed : w.Allowed h) (positive : 1 ≤ h.divInt.toNat) : 1 ≤ (clk h w).divInt.toNat := by
  rw [clk_divInt]
  cases written : w.divInt with
  | none => exact positive
  | some d =>
    have nonzero : d.toNat ≠ 0 := fun zero => allowed.div_positive d written (BitVec.eq_of_toNat_eq zero)
    exact Nat.one_le_iff_ne_zero.mpr nonzero

/-- The configuration of an enabled slice survives the edge (R44 e, R106, R112). -/
theorem clk_slice_locked (allowed : w.Allowed h) (en : h.pwmEn = true) :
    (clk h w).divInt = h.divInt ∧ (clk h w).divFrac = h.divFrac ∧ (clk h w).top = h.top := by
  obtain ⟨int, frac⟩ := allowed.div_locked en
  simp [int, frac, allowed.top_locked en]

/-- The match value of an enabled timer survives the edge (R118). -/
theorem clk_tmatch_locked (allowed : w.Allowed h) (en : h.tmrEn = true) : (clk h w).tmatch = h.tmatch := by
  simp [allowed.match_locked en]

/-- The divider of an enabled slice survives the edge (R22, R106). -/
theorem clk_div16_locked (allowed : w.Allowed h) (en : h.pwmEn = true) : (clk h w).div16 = h.div16 := by
  obtain ⟨int, frac, -⟩ := clk_slice_locked allowed en
  simp only [Pwmt.div16, int, frac]

/-- An enabled slice keeps `ACC` below the divider: a tick takes the divider off, and without one the sum is below it
(R44 b, R131). -/
theorem pwmNext_acc_lt (en : h.pwmEn = true) (positive : 1 ≤ h.divInt.toNat) (below : h.acc.toNat < h.div16) :
    (pwmNext h).acc.toNat < h.div16 := by
  have divLt := h.div16_lt
  have divGe := Pwmt.sixteen_le_div16 positive
  by_cases tick : h.div16 ≤ h.acc.toNat + 16
  · have acc : (pwmNext h).acc = BitVec.ofNat 12 (h.acc.toNat + 16 - h.div16) := by
      by_cases top : h.ctr = h.top
      · rw [pwmNext_wrap en tick top]
      · rw [pwmNext_count en tick top]
    rw [acc, BitVec.toNat_ofNat]
    omega
  · rw [pwmNext_hold en (Nat.lt_of_not_le tick), BitVec.toNat_ofNat]
    omega

/-- An enabled counter stays at most `TOP`: it counts only below it (R44 c, R132). -/
theorem pwmNext_ctr_le (en : h.pwmEn = true) (bound : h.ctr.toNat ≤ h.top.toNat) :
    (pwmNext h).ctr.toNat ≤ h.top.toNat := by
  by_cases tick : h.div16 ≤ h.acc.toNat + 16
  · by_cases top : h.ctr = h.top
    · simp [pwmNext_wrap en tick top]
    · rw [pwmNext_count en tick top]
      bv_omega
  · rw [pwmNext_hold en (Nat.lt_of_not_le tick)]
    exact bound

/-- An enabled timer stays at most `TMATCH`: it counts only below it (R44 d, R150). -/
theorem tmrNext_tcnt_le (en : h.tmrEn = true) (bound : h.tcnt.toNat ≤ h.tmatch.toNat) :
    (tmrNext h).tcnt.toNat ≤ h.tmatch.toNat := by
  by_cases hit : h.tcnt = h.tmatch
  · simp [tmrNext_match en hit]
  · rw [tmrNext_count en hit]
    bv_omega

/-- A clock edge with an allowed write keeps R44 (a) to (d). A unit that was disabled starts from 0. -/
theorem clk_inv (allowed : w.Allowed h) (inv : h.Inv) : (clk h w).Inv := by
  obtain ⟨positive, below, ctrBound, tcntBound⟩ := inv
  have positive' := clk_divInt_pos allowed positive
  refine ⟨positive', ?_, fun _ => ?_, fun _ => ?_⟩
  · cases en : h.pwmEn with
    | true =>
      rw [clk_div16_locked allowed en]
      exact pwmNext_acc_lt en positive below
    | false =>
      have divGe := Pwmt.sixteen_le_div16 positive'
      rw [clk_acc, pwmNext_disabled en]
      exact Nat.lt_of_lt_of_le (Nat.zero_lt_succ 15) divGe
  · cases en : h.pwmEn with
    | true =>
      rw [(clk_slice_locked allowed en).2.2]
      exact pwmNext_ctr_le en (ctrBound en)
    | false => simp [pwmNext_disabled en]
  · cases en : h.tmrEn with
    | true =>
      rw [clk_tmatch_locked allowed en]
      exact tmrNext_tcnt_le en (tcntBound en)
    | false => simp [tmrNext_disabled en]

/-- `OVR` rises over an edge only where a match finds `IP` set (R33, R152). -/
theorem clk_ovr_rises (clear : h.ovr = false) (risen : (clk h w).ovr = true) : h.matchNow = true ∧ h.ip = true := by
  rw [clk_ovr, tmrNext_isMatch, flagNext_eq, clear] at risen
  simp only [Bool.false_and, Bool.false_or, Bool.and_eq_true] at risen
  obtain ⟨hit, pending, -⟩ := risen
  exact ⟨hit, pending⟩

end ClockEdge

/-- The reset values of the block meet R44 (R45). -/
theorem Pwmt.reset_inv : Pwmt.reset.Inv := by decide

/-! ### Servo State and the stored configuration -/

/-- A tick leaves `target_pulse` between its bounds: it saturates at both ends (R192, R193, R197). -/
theorem Servo.tick_inBounds {sv : Servo} (bounds : sv.InBounds) : sv.tick.InBounds := by
  unfold Servo.tick
  dsimp only
  split
  · split
    · decide
    · simp only [Servo.InBounds, Config.pulseMin, Config.pulseMax, Config.pulseStep] at *
      omega
  · split
    · decide
    · simp only [Servo.InBounds, Config.pulseMin, Config.pulseMax, Config.pulseStep] at *
      omega

/-- The configuration that `configure` stores is sound when the wrap fits its register (R41, R171, R172). -/
theorem configOf_sound {P : Params} (wf : P.wf = true) (pin : Nat) (low : 0 ≤ wrapOf P) (high : wrapOf P ≤ 65535) :
    (configOf P pin).Sound := by
  simp only [Params.wf, Bool.and_eq_true, decide_eq_true_eq] at wf
  simp only [wrapOf] at low high
  simp only [PwmConfig.Sound, configOf, wrapOf]
  omega

/-! ### The host in the middle of a cycle -/

/-- What the host keeps inside a cycle: its invariant but for `main_open`. Between main's last transaction and the end
of the cycle the queue may be empty, and the end of the cycle then completes the operation. -/
structure HostState.MidInv (h : HostState) : Prop where
  servo_bounds : ∀ sv, h.servo = some sv → sv.InBounds
  cfg_sound : ∀ c, h.cfg = some c → c.Sound
  main_after : ∀ t ∈ h.phase.queue, t.after.mainOk
  isr_after : ∀ t ∈ h.isrQueue, t.after.isrOk
  out_of_service : h.inService = false → h.isrQueue = [] ∧ h.isrGap = none ∧ h.isrLeft = 0
  halted_recorded : h.halted = true → h.error.isSome = true

/-- What may follow a transaction of this host, whichever context presented it: a sound configuration to store, and the
callback only with the handler in service (R208). -/
def AfterTxn.Due (h : HostState) : AfterTxn → Prop
  | .storeConfig c => c.Sound
  | .runCallback => h.inService = true
  | .resumeCallback => h.inService = true
  | .nothing => True
  | .armChecks _ _ => True
  | .storeHandler _ => True
  | .forgetHandler => True

theorem AfterTxn.mainOk.due {a : AfterTxn} (ok : a.mainOk) (h : HostState) : a.Due h := by
  cases a
  case runCallback => exact ok.elim
  case resumeCallback => exact ok.elim
  all_goals exact ok

theorem AfterTxn.isrOk.due {a : AfterTxn} (ok : a.isrOk) {h : HostState} (service : h.inService = true) : a.Due h := by
  cases a
  case resumeCallback => exact service
  case storeConfig => exact ok.elim
  case runCallback => exact ok.elim
  all_goals trivial

section MidCycle
variable {h : HostState}

theorem HostState.midInv_iff : h.Inv ↔ h.MidInv ∧ (h.halted = false → h.phase ≠ .txns []) :=
  ⟨fun inv => ⟨{ inv with }, inv.main_open⟩, fun ⟨mid, opened⟩ => { mid with main_open := opened }⟩

/-- The main context moves on: only what it is still going to present matters. -/
theorem HostState.MidInv.withMain (mid : h.MidInv) {p : Phase} {n : Nat} {gap : Option Nat}
    (after : ∀ t ∈ p.queue, t.after.mainOk) : { h with phase := p, hpc := n, mainGap := gap }.MidInv :=
  { mid with main_after := after }

theorem HostState.MidInv.completeOp (mid : h.MidInv) (P : Params) : (completeOp P h).MidInv := by
  rw [(completeOp_eq P h).1]
  exact mid.withMain (by simp [Phase.queue])

/-- A recorded error stops the host and touches nothing else (R229, R232). -/
theorem HostState.MidInv.raiseFatal (mid : h.MidInv) (e : HostError) : (h.raiseFatal e).MidInv :=
  { mid with halted_recorded := fun _ => rfl }

theorem HostState.Inv.raiseFatal (inv : h.Inv) (e : HostError) : (h.raiseFatal e).Inv :=
  HostState.midInv_iff.mpr ⟨(HostState.midInv_iff.mp inv).1.raiseFatal e, by simp⟩

/-- The handler in service queues other transactions. -/
theorem HostState.MidInv.withIsrQueue (mid : h.MidInv) (service : h.inService = true) {q : List PendingTxn}
    {gap : Option Nat} (after : ∀ t ∈ q, t.after.isrOk) : { h with isrQueue := q, isrGap := gap }.MidInv :=
  { mid with isr_after := after, out_of_service := fun out => by simp [service] at out }

theorem HostState.MidInv.withServo (mid : h.MidInv) {sv : Option Servo} (bounds : ∀ v, sv = some v → v.InBounds) :
    { h with servo := sv }.MidInv :=
  { mid with servo_bounds := bounds }

theorem HostState.MidInv.withHandler (mid : h.MidInv) (cb : Option Callback) : { h with handler := cb }.MidInv :=
  { mid with }

theorem HostState.MidInv.withIrqGap (mid : h.MidInv) (gap : Option Nat) : { h with irqGap := gap }.MidInv :=
  { mid with }

theorem HostState.MidInv.enterIsr (mid : h.MidInv) (duration : Nat) : (h.enterIsr duration).MidInv :=
  { mid with isr_after := by simp, out_of_service := by simp }

end MidCycle

/-! ### The end of a cycle restores the invariant -/

/-- The handler's end of a cycle (R236). -/
theorem HostState.Inv.passIsr {h : HostState} (inv : h.Inv) : h.passIsr.Inv := by
  rcases passIsr_cases h with ⟨-, stays⟩ | ⟨-, -, -, returns⟩ | ⟨service, -, goesOn⟩
  · rwa [stays]
  · rw [returns]
    exact { inv with isr_after := by simp, out_of_service := fun _ => ⟨rfl, rfl, rfl⟩ }
  · rw [goesOn]
    exact { inv with out_of_service := fun out => by simp [service] at out }

theorem Phase.queue_pass (p : Phase) : p.pass.queue = p.queue := by cases p <;> rfl

theorem Phase.pass_eq_txns {p : Phase} {q : List PendingTxn} : p.pass = .txns q ↔ p = .txns q := by
  cases p <;> simp [Phase.pass]

/-- The end of a cycle completes an operation whose queue is empty, so it closes the gap between the invariant inside a
cycle and the one between cycles. -/
theorem HostState.MidInv.endCycle {h : HostState} (mid : h.MidInv) (P : Params) : (h.endCycle P).Inv := by
  cases halted : h.halted with
  | true =>
    rw [endCycle_halted P halted]
    exact HostState.midInv_iff.mpr ⟨mid, by simp [halted]⟩
  | false =>
    rw [HostState.endCycle, if_neg (by simp [halted])]
    apply HostState.Inv.passIsr
    split
    · exact HostState.midInv_iff.mpr ⟨mid.completeOp P, by simp⟩
    · next opened =>
      have after : ∀ t ∈ h.phase.pass.queue, t.after.mainOk := by
        rw [Phase.queue_pass]
        exact mid.main_after
      exact HostState.midInv_iff.mpr ⟨mid.withMain after, fun _ => mt Phase.pass_eq_txns.mp opened⟩

/-! ### What follows a transaction keeps the host -/

/-- The host that a result leaves is sound inside its cycle. -/
def HostResult.Keeps : HostResult → Prop
  | .ok h => h.MidInv
  | .refuse _ => True

section Callback
variable {h : HostState}

theorem cancelTxns_isrOk (cont : Bool) : ∀ t ∈ cancelTxns cont, t.after.isrOk := by
  cases cont <;> simp [cancelTxns, AfterTxn.isrOk]

theorem callbackTxn_isrOk (x : BusWord) : (callbackTxn x).after.isrOk := trivial

theorem plainTxn_isrOk (x : BusWord) : (plainTxn x).after.isrOk := trivial

theorem plainTxn_mainOk (x : BusWord) : (plainTxn x).after.mainOk := trivial

/-- A move of a host function queues transactions of the handler and gives Servo State a value in bounds (R42, R205). -/
theorem doMove_keeps (mid : h.MidInv) (service : h.inService = true) (id : Nat) (m : CallbackMove) :
    (doMove id m h).Keeps := by
  rcases doMove_cases id m h with ⟨r, refused⟩ | ⟨sv, q, moved, queue, servo⟩
  · rw [refused]; trivial
  · have after : ∀ t ∈ q, t.after.isrOk := by
      rcases queue with ⟨x, rfl⟩ | ⟨cont, rfl⟩
      · simpa using callbackTxn_isrOk x
      · exact cancelTxns_isrOk cont
    have bounds : ∀ v, sv = some v → v.InBounds := by
      rcases servo with rfl | ⟨v, rfl⟩ | ⟨old, was, rfl⟩ | ⟨v, rfl⟩
      · exact mid.servo_bounds
      · simpa using toServo_inBounds v
      · simpa using Servo.tick_inBounds (mid.servo_bounds old was)
      · simpa using Servo.tick_inBounds (toServo_inBounds v)
    rw [moved]
    exact ((mid.withHandler _).withServo bounds).withIsrQueue service after

theorem runHostFn_keeps (P : Params) (mid : h.MidInv) (service : h.inService = true) (id memory : Nat)
    (resp : Option Response) : (runHostFn P id memory resp h).Keeps := by
  rcases runHostFn_cases P id memory resp h with ⟨-, refused⟩ | ⟨sv, -, ran⟩
  · rw [refused]; trivial
  · rw [ran]; exact doMove_keeps mid service id _

/-- The callback of the handler in service: `tick`, or a host function (R208). -/
theorem isrBody_keeps (P : Params) (mid : h.MidInv) (service : h.inService = true) : (isrBody P h).Keeps := by
  unfold isrBody
  split
  · trivial
  · rcases tickOp_cases h with ⟨-, r, refused⟩ | ⟨sv, c, was, -, ran⟩
    · rw [refused]; trivial
    · have bounds : ∀ v, some sv.tick = some v → v.InBounds := by
        simpa using Servo.tick_inBounds (mid.servo_bounds sv was)
      have after : ∀ t ∈ [setPulseWord c sv.tick.targetPulse].map plainTxn ++ cancelTxns true, t.after.isrOk := by
        simpa [cancelTxns] using plainTxn_isrOk _
      rw [ran]
      exact (mid.withServo bounds).withIsrQueue service after
  · exact runHostFn_keeps P mid service _ _ _

theorem resumeBody_keeps (P : Params) (resp : Option Response) (mid : h.MidInv) (service : h.inService = true) :
    (resumeBody P resp h).Keeps := by
  unfold resumeBody
  split
  · trivial
  · exact mid
  · exact runHostFn_keeps P mid service _ _ _

end Callback

theorem armTxns_mainOk (n : Nat) (cb : Callback) : ∀ t ∈ armTxns n cb, t.after.mainOk := by
  simp [armTxns, plainTxn, AfterTxn.mainOk]

theorem armChecks_keeps (P : Params) (ms : Nat) (cb : Callback) (resp : Option Response) {h : HostState}
    (mid : h.MidInv) : (armChecks P ms cb resp h).Keeps := by
  rcases armChecks_cases P ms cb resp h with ⟨-, taken⟩ | ⟨-, -, refused⟩ | ⟨-, -, -, armed⟩
  · rw [taken]; exact mid.raiseFatal _
  · rw [refused]; trivial
  · rw [armed]; exact mid.withMain (armTxns_mainOk _ _)

/-- Whatever may follow a transaction keeps the host. -/
theorem afterTxn_keeps (P : Params) {a : AfterTxn} (resp : Option Response) {h : HostState} (mid : h.MidInv)
    (due : a.Due h) : (afterTxn P a resp h).Keeps := by
  cases a with
  | nothing => exact mid
  | storeConfig c => exact { mid with cfg_sound := fun _ stored => Option.some.inj stored ▸ due }
  | armChecks ms cb => exact armChecks_keeps P ms cb resp mid
  | storeHandler cb => exact mid.withHandler _
  | runCallback => exact isrBody_keeps P mid due
  | resumeCallback => exact resumeBody_keeps P resp mid due
  | forgetHandler => exact mid.withHandler _

/-! ### What the host chooses for a cycle keeps the host -/

/-- What beginning an operation leaves is sound inside the cycle. -/
def Begun.Keeps : Begun → Prop
  | .refuse _ => True
  | .fatal _ => True
  | .start p => ∀ t ∈ p.queue, t.after.mainOk
  | .done h => h.MidInv

/-- The host that a move leaves is sound inside the cycle, and what follows the move's transaction is due. -/
def HostMove.Keeps : HostMove → Prop
  | .idle s => s.host.MidInv
  | .present t s => s.host.MidInv ∧ t.after.Due s.host
  | .refuse _ => True

theorem configureOp_keeps {P : Params} (wf : P.wf = true) (pin f : Nat) (h : HostState) :
    (configureOp P pin f h).Keeps := by
  rcases configureOp_cases P pin f h with ⟨-, begun⟩ | ⟨-, -, begun⟩ | ⟨-, -, -, begun⟩ | ⟨-, -, -, -, begun⟩ |
    ⟨-, -, -, low, high, begun⟩ <;> rw [begun]
  case inr.inr.inr.inr =>
    have sound := configOf_sound wf pin low high
    simpa [Begun.Keeps, Phase.queue, configureTxns, plainTxn, AfterTxn.mainOk] using sound
  all_goals trivial

theorem setPulseOp_keeps (p : Int) (h : HostState) : (setPulseOp p h).Keeps := by
  unfold setPulseOp
  split
  · trivial
  · simpa [Begun.Keeps, Phase.queue] using plainTxn_mainOk _

theorem Servo.initial_inBounds : Servo.initial.InBounds := by decide

theorem beginOp_keeps {P : Params} (wf : P.wf = true) (op : HostOp) {h : HostState} (mid : h.MidInv) :
    (beginOp P op h).Keeps := by
  cases op with
  | stdioInit => exact mid
  | configure pin f => exact configureOp_keeps wf pin f h
  | setPulse p => exact setPulseOp_keeps p h
  | wait ms => simp [beginOp, Begun.Keeps, Phase.queue]
  | initServo => exact mid.withServo (by simpa using Servo.initial_inBounds)
  | arm ms cb => simp [beginOp, armOp, Begun.Keeps, Phase.queue, AfterTxn.mainOk]
  | idleLoop ms => simp [beginOp, Begun.Keeps, Phase.queue]

theorem mainTxn_keeps (P : Params) {t : PendingTxn} {queue : List PendingTxn} {s : State} (mid : s.host.MidInv)
    (phase : s.host.phase = .txns (t :: queue)) : (mainTxn P t queue s).Keeps := by
  have after : ∀ x ∈ t :: queue, x.after.mainOk := by simpa [phase, Phase.queue] using mid.main_after
  unfold mainTxn
  dsimp only
  split
  · exact ⟨mid.withMain fun x m => after x (.tail t m), (after t (.head queue)).due _⟩
  · exact mid.withMain mid.main_after

/-- Main's cycle, by the operations it passes in it (log 8). -/
theorem mainMove_keeps {P : Params} (wf : P.wf = true) (fuel : Nat) {s : State} (mid : s.host.MidInv) :
    (mainMove P fuel s).Keeps := by
  induction fuel generalizing s with
  | zero => exact mid
  | succ n ih =>
    unfold mainMove
    split
    · next phase => exact mainTxn_keeps P mid phase
    · exact ih (mid.completeOp P)
    · exact ih (mid.completeOp P)
    · exact mid
    · split
      · exact mid
      · next op _ =>
        have begun := beginOp_keeps wf op mid
        split
        · trivial
        · exact mid.raiseFatal _
        · next p started => exact ih (mid.withMain (by rwa [started] at begun))
        · next h done =>
          rw [done] at begun
          exact ih (HostState.MidInv.completeOp begun P)

theorem isrMove_keeps (P : Params) {s : State} (mid : s.host.MidInv) (service : s.host.inService = true) :
    (isrMove P s).Keeps := by
  unfold isrMove
  split
  · exact mid
  · next t queue queued =>
    have after : ∀ x ∈ t :: queue, x.after.isrOk := by simpa [queued] using mid.isr_after
    dsimp only
    split
    · exact ⟨mid.withIsrQueue service fun x m => after x (.tail t m), (after t (.head queue)).due service⟩
    · exact mid.withIsrQueue service mid.isr_after

theorem startIsr_keeps (P : Params) {s : State} (mid : s.host.MidInv) : (startIsr P s).Keeps := by
  unfold startIsr
  split
  · trivial
  · trivial
  · exact ⟨mid.enterIsr _, rfl⟩

theorem requestMove_keeps {P : Params} (wf : P.wf = true) {s : State} (mid : s.host.MidInv) :
    (requestMove P s).Keeps := by
  unfold requestMove
  dsimp only
  split
  · exact startIsr_keeps P mid
  · exact mainMove_keeps wf _ (mid.withIrqGap _)

theorem hostMove_keeps {P : Params} (wf : P.wf = true) {s : State} (mid : s.host.MidInv) : (hostMove P s).Keeps := by
  unfold hostMove
  split
  · exact mid
  · split
    · next service => exact isrMove_keeps P mid service
    · split
      · exact requestMove_keeps wf mid
      · exact mainMove_keeps wf _ (mid.withIrqGap _)

/-! ### The host over a whole cycle -/

/-- The end of a transaction's cycle: an error has stopped the host, or what follows the transaction is due. -/
theorem finishTxn_host_inv {P : Params} {a : AfterTxn} {s t : State} (mid : s.host.MidInv)
    (due : s.host.halted = false → a.Due s.host) (finish : finishTxn P a s = .next t) : t.host.Inv := by
  unfold finishTxn at finish
  split at finish
  · next halted =>
    cases finish
    exact HostState.midInv_iff.mpr ⟨mid, by simp [halted]⟩
  · next running =>
    have keeps := afterTxn_keeps P s.resp mid (due (by simpa using running))
    split at finish
    · cases finish
    · next h after =>
      rw [after] at keeps
      cases finish
      exact HostState.MidInv.endCycle keeps P

/-- A cycle that the host program drives keeps the host's invariant. -/
theorem hostCycle_host_inv {P : Params} (wf : P.wf = true) {s t : State} (inv : s.host.Inv)
    (cycle : hostCycle P s = .next t) : t.host.Inv := by
  have keeps := hostMove_keeps wf (HostState.midInv_iff.mp inv).1
  unfold hostCycle at cycle
  split at cycle
  · cases cycle
  · next s' move =>
    rw [move] at keeps
    cases cycle
    exact HostState.MidInv.endCycle keeps P
  · next x s' move =>
    rw [move] at keeps
    obtain ⟨mid, due⟩ := keeps
    obtain ⟨b, u, -, presented, -, -, -, host⟩ := present_inv x.word s'
    rw [presented] at cycle
    rcases host with same | stopped
    · exact finishTxn_host_inv (same ▸ mid) (fun _ => same ▸ due) cycle
    · exact finishTxn_host_inv (stopped ▸ mid.raiseFatal _) (by simp [stopped]) cycle

theorem HostState.reset_inv : HostState.reset.Inv := by
  constructor <;> simp [HostState.reset, Phase.queue]

/-- A cycle that the outside drives: reset, or the host stands still but for a `BusError` (logs 2, 4). -/
theorem portCycle_host_inv (p : PortInput) {s t : State} (inv : s.host.Inv) (cycle : portCycle p s = .next t) :
    t.host.Inv := by
  unfold portCycle at cycle
  split at cycle
  · cases cycle
    exact HostState.reset_inv
  · split at cycle
    · next w _ =>
      obtain ⟨b, u, -, presented, -, -, -, host⟩ := present_inv w s
      rw [presented] at cycle
      cases cycle
      rcases host with same | stopped
      · rwa [same]
      · rw [stopped]; exact inv.raiseFatal _
    · cases cycle
      exact inv

theorem stepWith_host_inv {P : Params} (wf : P.wf = true) {s t : State} (inv : s.host.Inv)
    (edge : stepWith P s = .next t) : t.host.Inv := by
  unfold stepWith at edge
  split at edge
  · next p rest _ => exact portCycle_host_inv (s := { s with inputs := rest }) p inv edge
  · exact hostCycle_host_inv wf inv edge

theorem stepWith_hw_inv {P : Params} {s t : State} (inv : s.hw.Inv) (edge : stepWith P s = .next t) : t.hw.Inv := by
  rcases stepWith_hw edge with ⟨-, -, -, -, reset⟩ | ⟨w, allowed, clocked⟩
  · rw [reset]; exact Pwmt.reset_inv
  · rw [clocked]; exact clk_inv allowed inv

/-! ### The statements -/

/-- Settles O39: the block's edge writes only what is allowed, and the host's cycle keeps its invariant up to the end of
the cycle, which completes an emptied queue. -/
theorem everyStepKeepsTheInvariant : Obligations.EveryStepKeepsTheInvariant := by
  intro s t inv edge
  exact ⟨stepWith_hw_inv inv.hw edge, stepWith_host_inv params_wf inv.host edge⟩

/-- Settles O30: reset clears `OVR`, and over a clock edge it rises as `clk_ovr_rises` says. -/
theorem overrunOnlyByAMergedMatch : Obligations.OverrunOnlyByAMergedMatch := by
  intro s t edge clear risen
  rcases stepWith_hw edge with ⟨-, -, -, -, reset⟩ | ⟨w, -, clocked⟩
  · simp [reset, Pwmt.reset] at risen
  · rw [clocked] at risen
    exact clk_ovr_rises clear risen

/-- Settles O32: reset disables both units, and over a clock edge the locks hold. -/
theorem configurationIsLockedWhileEnabled : Obligations.ConfigurationIsLockedWhileEnabled := by
  intro s t edge
  rcases stepWith_hw edge with ⟨-, -, -, -, reset⟩ | ⟨w, allowed, clocked⟩
  · rw [reset]
    exact ⟨fun _ enabled => absurd enabled (by decide), fun _ enabled => absurd enabled (by decide)⟩
  · rw [clocked]
    exact ⟨fun enabled _ => clk_slice_locked allowed enabled, fun enabled _ => clk_tmatch_locked allowed enabled⟩

/-- The output is the strict compare of an enabled slice (R34). -/
theorem Pwmt.pwmOut_iff (h : Pwmt) : h.pwmOut = true ↔ h.pwmEn = true ∧ h.ctr.toNat < h.ccAct.toNat := by
  simp [Pwmt.pwmOut]

/-- Settles O33: no counter is below 0, and an enabled counter in the invariant is at most `TOP`. -/
theorem outputIsTheStrictCompare : Obligations.OutputIsTheStrictCompare := by
  intro h
  refine ⟨h.pwmOut_iff, fun zero => ?_, fun ⟨_, _, ctrBound, _⟩ en full => ?_⟩
  · rw [Bool.eq_false_iff, Ne, h.pwmOut_iff, zero]
    rintro ⟨-, below⟩
    exact Nat.not_lt_zero _ below
  · exact h.pwmOut_iff.mpr ⟨en, Nat.lt_of_le_of_lt (ctrBound en) full⟩

/-- Settles O1: the reset values, the outputs and the read values are computed from the table's literals. -/
theorem resetValuesAreTheTable : Obligations.ResetValuesAreTheTable := by
  unfold Obligations.ResetValuesAreTheTable
  decide

/-- Settles O34: the request is the conjunction of the flag and its enable. -/
theorem requestIsPendingAndEnabled : Obligations.RequestIsPendingAndEnabled := by
  intro h
  rw [Pwmt.irq, Bool.and_eq_true]

/-- Settles O38: the block's and the host's reset values. -/
theorem resetMeetsTheInvariant : Obligations.ResetMeetsTheInvariant := ⟨Pwmt.reset_inv, HostState.reset_inv⟩

/-- Settles O60: at reset `configure` has not begun, and nothing is set up. -/
theorem resetIsABootStage : Obligations.ResetIsABootStage := by
  intro P pin
  have configuring : Configuring P pin State.reset :=
    { unset := ⟨rfl, rfl, rfl⟩
      work := .inl ⟨.inl rfl, rfl⟩
      timer := ⟨rfl, rfl⟩
      service := ⟨rfl, rfl⟩ }
  exact ⟨rfl, .inl ⟨rfl, rfl, .inl configuring⟩⟩

end Sys2Proof.Machine

/-! PROOFS. The registers as the bus sees them: the offsets that hold one, and the value that an accepted write leaves
for the next read (20_memory.md R65, R66, R69; 30_encoding.md R82, R86). -/

namespace Sys2Proof

/-! ### The offsets that hold a register -/

theorem Reg.index_lt (r : Reg) : r.index < 9 := by cases r <;> decide

/-- Every word index below 9 is a register's (R65). -/
theorem Reg.exists_index : ∀ n, n < 9 → ∃ r : Reg, r.index = n
  | 0, _ => ⟨.pwmCsr, rfl⟩
  | 1, _ => ⟨.pwmDiv, rfl⟩
  | 2, _ => ⟨.pwmCtr, rfl⟩
  | 3, _ => ⟨.pwmCc, rfl⟩
  | 4, _ => ⟨.pwmTop, rfl⟩
  | 5, _ => ⟨.tmrCsr, rfl⟩
  | 6, _ => ⟨.tmrCnt, rfl⟩
  | 7, _ => ⟨.tmrMatch, rfl⟩
  | 8, _ => ⟨.tmrIntr, rfl⟩

theorem Reg.offset_toNat (r : Reg) : r.offset.toNat = 4 * r.index := by cases r <;> rfl

/-- The offsets that hold a register are the multiples of 4 below 0x24 (R65, R66). -/
theorem exists_eq_offset_iff (a : Offset) : (∃ r : Reg, a = r.offset) ↔ a.toNat % 4 = 0 ∧ a.toNat < 0x24 := by
  constructor
  · rintro ⟨r, rfl⟩
    have bound := r.index_lt
    rw [r.offset_toNat]
    omega
  · rintro ⟨aligned, below⟩
    obtain ⟨r, index⟩ := Reg.exists_index (a.toNat / 4) (by omega)
    refine ⟨r, BitVec.eq_of_toNat_eq ?_⟩
    rw [r.offset_toNat, index]
    omega

/-! ### What the decoder accepts -/

/-- A word decodes exactly where a register stands at its address (R84). -/
theorem exists_decodeWord_ok_iff (w : BusWord) : (∃ i, decodeWord w = .ok i) ↔ ∃ r : Reg, addrOf w = r.offset := by
  rcases decodeWord_cases w with ⟨r, address, decodes⟩ | ⟨hole, rejects⟩
  · exact iff_of_true ⟨_, decodes⟩ ⟨r, address⟩
  · refine iff_of_false (by simp [rejects]) ?_
    rintro ⟨r, address⟩
    simp [address] at hole

/-- The decoder answers one of the two. -/
theorem exists_decodeWord_reject_iff (w : BusWord) :
    (∃ r, decodeWord w = .reject r) ↔ ¬ ∃ i, decodeWord w = .ok i := by
  cases decodeWord w <;> simp

/-- Settles O6: the decoder accepts the offsets that hold a register and rejects the others. -/
theorem legalAddressesAreTheNineOffsets : Obligations.LegalAddressesAreTheNineOffsets := by
  intro w
  rw [exists_decodeWord_reject_iff, exists_decodeWord_ok_iff, exists_eq_offset_iff]
  simp only [List.mem_cons, List.not_mem_nil, or_false]
  omega

end Sys2Proof

namespace Sys2Proof.Machine

/-! ### The fields of `WDATA` as numbers -/

section Fields
variable (v : Word)

theorem fieldEn_toNat : (fieldEn v).toNat = v.toNat % 2 := by
  rw [fieldEn, ← BitVec.testBit_toNat, Nat.toNat_testBit, Nat.pow_zero, Nat.div_one]

theorem fieldIe_toNat : (fieldIe v).toNat = v.toNat / 2 % 2 := by
  rw [fieldIe, ← BitVec.testBit_toNat, Nat.toNat_testBit, Nat.pow_one]

theorem fieldInt_toNat : (fieldInt v).toNat = v.toNat / 16 % 256 := by
  simp [fieldInt, Nat.shiftRight_eq_div_pow]

theorem fieldFrac_toNat : (fieldFrac v).toNat = v.toNat % 16 := by simp [fieldFrac]

theorem fieldLevel_toNat : (fieldLevel v).toNat = v.toNat % 2 ^ 17 := by simp [fieldLevel]

theorem fieldWrap_toNat : (fieldWrap v).toNat = v.toNat % 2 ^ 16 := by simp [fieldWrap]

end Fields

/-! ### The read values as numbers (R40) -/

section ReadValues
variable (h : Pwmt)

theorem readReg_pwmCsr_toNat : (h.readReg .pwmCsr).toNat = h.pwmEn.toNat := by
  cases en : h.pwmEn <;> simp [Pwmt.readReg, en]

/-- The divider reads as its sixteenths: `INT` in bits 11:4 and `FRAC` in bits 3:0 do not overlap (R22). -/
theorem readReg_pwmDiv_toNat : (h.readReg .pwmDiv).toNat = h.div16 := by
  have int := h.divInt.isLt
  have frac := h.divFrac.isLt
  have shifted : (h.divInt.setWidth 32 <<< 4).toNat = 2 ^ 4 * h.divInt.toNat := by
    simp [BitVec.toNat_shiftLeft, Nat.shiftLeft_eq]
    omega
  have low : (h.divFrac.setWidth 32).toNat = h.divFrac.toNat := BitVec.toNat_setWidth_of_le (by decide)
  rw [Pwmt.readReg, BitVec.toNat_or, shifted, low, ← Nat.two_pow_add_eq_or_of_lt frac, Pwmt.div16]

theorem readReg_pwmCc_toNat : (h.readReg .pwmCc).toNat = h.cc.toNat := BitVec.toNat_setWidth_of_le (by decide)

theorem readReg_pwmTop_toNat : (h.readReg .pwmTop).toNat = h.top.toNat := BitVec.toNat_setWidth_of_le (by decide)

theorem readReg_tmrCsr_toNat : (h.readReg .tmrCsr).toNat = 2 * h.tmrIe.toNat + h.tmrEn.toNat := by
  cases ie : h.tmrIe <;> cases en : h.tmrEn <;> simp [Pwmt.readReg, ie, en]

theorem readReg_tmrMatch : h.readReg .tmrMatch = h.tmatch := rfl

end ReadValues

/-! ### A write, and the read after it -/

/-- The read transaction of a register is its read cycle (R102). -/
theorem exec_read (g : Reg) (s : State) : exec g.read s = .next (s.readCycle g) := by cases g <;> rfl

section Writes
variable (v : Word) (s : State)

theorem exec_wrPwmCsr : exec (.wrPwmCsr v) s = .next (s.writeCycle { pwmEn := some (fieldEn v) }) := rfl

theorem exec_wrPwmCc : exec (.wrPwmCc v) s = .next (s.writeCycle { cc := some (fieldLevel v) }) := rfl

theorem exec_wrTmrCsr :
    exec (.wrTmrCsr v) s = .next (s.writeCycle { tmrEn := some (fieldEn v), tmrIe := some (fieldIe v) }) := rfl

variable {v s}

/-- `WR.PWM_DIV`, accepted (R106). -/
theorem exec_wrPwmDiv_accepted (en : s.hw.pwmEn = false) (int : v.toNat / 16 % 256 ≠ 0) :
    exec (.wrPwmDiv v) s = .next (s.writeCycle { divInt := some (fieldInt v), divFrac := some (fieldFrac v) }) := by
  have nonzero : fieldInt v ≠ 0 := fun zero => int (by rw [← fieldInt_toNat, zero]; rfl)
  exact if_pos ⟨en, nonzero⟩

/-- `WR.PWM_TOP`, accepted (R112). -/
theorem exec_wrPwmTop_accepted (en : s.hw.pwmEn = false) :
    exec (.wrPwmTop v) s = .next (s.writeCycle { top := some (fieldWrap v) }) := if_pos en

/-- `WR.TMR_MATCH`, accepted (R118). -/
theorem exec_wrTmrMatch_accepted (en : s.hw.tmrEn = false) :
    exec (.wrTmrMatch v) s = .next (s.writeCycle { tmatch := some v }) := if_pos en

end Writes

/-- A write followed by a read answers what the block's edge of the write leaves in the register (R69, R280). -/
theorem read_after_write {i : Instr} {s : State} {b : BusWrite} (writes : exec i s = .next (s.writeCycle b)) (g : Reg)
    {x : Word} (left : (clk s.hw b).readReg g = x) :
    ∃ t u, exec i s = .next t ∧ exec g.read t = .next u ∧ u.resp = some { rdata := x, err := false } :=
  ⟨_, _, writes, exec_read g _, by rw [State.readCycle_resp, State.writeCycle_hw, left]⟩

/-- `read_after_write` for a register whose value is known as a number. -/
theorem read_after_write_ofNat {i : Instr} {s : State} {b : BusWrite} (writes : exec i s = .next (s.writeCycle b))
    (g : Reg) {n : Nat} (number : ((clk s.hw b).readReg g).toNat = n) :
    ∃ t u, exec i s = .next t ∧ exec g.read t = .next u ∧
      u.resp = some { rdata := BitVec.ofNat 32 n, err := false } :=
  read_after_write writes g (by simp [← number])

/-- Settles O23: each accepted write leaves its field bits in the register, and the fields' numbers make up the low bits
of the operand. -/
theorem writtenValueReadsBackNextCycle : Obligations.WrittenValueReadsBackNextCycle := by
  intro s v
  refine ⟨read_after_write_ofNat (exec_wrPwmCsr v s) .pwmCsr ?csr,
    fun en int => read_after_write_ofNat (exec_wrPwmDiv_accepted en int) .pwmDiv ?div,
    read_after_write_ofNat (exec_wrPwmCc v s) .pwmCc ?cc,
    fun en => read_after_write_ofNat (exec_wrPwmTop_accepted en) .pwmTop ?top,
    read_after_write_ofNat (exec_wrTmrCsr v s) .tmrCsr ?timer,
    fun en => read_after_write (exec_wrTmrMatch_accepted en) .tmrMatch (readReg_tmrMatch _)⟩
  case csr => rw [readReg_pwmCsr_toNat, clk_pwmEn, Option.getD_some, fieldEn_toNat]
  case div =>
    simp only [readReg_pwmDiv_toNat, Pwmt.div16, clk_divInt, clk_divFrac, Option.getD_some, fieldInt_toNat,
      fieldFrac_toNat]
    omega
  case cc => rw [readReg_pwmCc_toNat, clk_cc, Option.getD_some, fieldLevel_toNat]
  case top => rw [readReg_pwmTop_toNat, clk_top, Option.getD_some, fieldWrap_toNat]
  case timer =>
    simp only [readReg_tmrCsr_toNat, clk_tmrIe, clk_tmrEn, Option.getD_some, fieldIe_toNat, fieldEn_toNat]
    omega

end Sys2Proof.Machine

/-! PROOFS. The encoder and the decoder are inverse to each other: a transaction's word is `txnWord` of its row's
fields, a word is the six bytes it is stored as, and a word that decodes has its row's fields (30_encoding.md R80, R84). -/

namespace Sys2Proof

/-! ### The encoder by fields (R80, R84) -/

/-- A transaction reads a register or writes one (R84). -/
theorem instr_read_or_write (i : Instr) : (∃ r : Reg, i = r.read) ∨ ∃ (r : Reg) (v : Word), i = r.write v := by
  have row := instr_eq_of_reg i
  split at row
  · exact .inl ⟨_, row⟩
  · exact .inr ⟨_, _, row⟩

section Rows
variable (r : Reg) (v : Word)

theorem opcode_read : r.read.opcode = txnWord false r.offset 0 := by cases r <;> rfl

theorem opcode_write : (r.write v).opcode = txnWord true r.offset 0 := by cases r <;> rfl

theorem encode_read : encode r.read = txnWord false r.offset 0 := by
  rw [encode, reg_read_wdata, opcode_read]
  exact BitVec.or_zero

theorem encode_write : encode (r.write v) = txnWord true r.offset v := by
  rw [encode, reg_write_wdata, opcode_write]
  simp [txnWord]

end Rows

/-- The mask of every row is the two fields `WE` and `ADDR`, all ones (R84). -/
theorem opcodeMask_eq_txnWord : opcodeMask = txnWord true (BitVec.allOnes 8) 0 := rfl

/-- The mask keeps `WE` and `ADDR` and clears `WDATA` (R84). -/
theorem txnWord_and_opcodeMask (we : Bool) (a : Offset) (v : Word) :
    txnWord we a v &&& opcodeMask = txnWord we a 0 := by
  apply BitVec.eq_of_getLsbD_eq
  intro k _
  simp only [opcodeMask_eq_txnWord, BitVec.getLsbD_and, getLsbD_txnWord]
  split
  · simp
  · split
    · rw [BitVec.getLsbD_allOnes, decide_eq_true (show k - 32 < 8 by omega), Bool.and_true]
    · cases we <;> simp

/-! ### A word and its stored bytes (R61) -/

/-- The low `n` bits of a word, joined with the `m` bits above them, are its low `n + m` bits. -/
theorem low_or_slice (w : BusWord) (n m : Nat) :
    (w.extractLsb' 0 n).setWidth 41 ||| (w.extractLsb' n m).setWidth 41 <<< n =
      (w.extractLsb' 0 (n + m)).setWidth 41 := by
  apply BitVec.eq_of_getLsbD_eq
  intro k bound
  by_cases low : k < n
  · simp [bound, low, show k < n + m by omega]
  · simp [bound, low, show n + (k - n) = k by omega, show k - n < m ↔ k < n + m by omega]

/-- The six stored bytes of a word stand for that word. -/
theorem bytesWord_slices (w : BusWord) :
    bytesWord (w.extractLsb' 0 8) (w.extractLsb' 8 8) (w.extractLsb' 16 8) (w.extractLsb' 24 8) (w.extractLsb' 32 8)
      ((w.extractLsb' 40 1).setWidth 8) = w := by
  have top : ((w.extractLsb' 40 1).setWidth 8).setWidth 41 = (w.extractLsb' 40 1).setWidth 41 :=
    BitVec.setWidth_setWidth (by decide)
  rw [bytesWord, top]
  simp only [low_or_slice, Nat.reduceAdd]
  simp

/-- The stored form of a word decodes as the word: its seven upper bits are 0 (log 13). -/
theorem decodeBytes_wordBytes (w : BusWord) : decodeBytes (wordBytes w) = decodeWord w := by
  have fits : ((w.extractLsb' 40 1).setWidth 8).extractLsb' 1 7 = 0 := by
    apply BitVec.eq_of_getLsbD_eq
    intro k _
    simp
  rw [wordBytes, decodeBytes, if_pos fits, bytesWord_slices]

/-! ### What decodes to a transaction -/

theorem decodeWord_encode (i : Instr) : decodeWord (encode i) = .ok i := by
  rcases instr_read_or_write i with ⟨r, rfl⟩ | ⟨r, v, rfl⟩
  · rw [encode_read, decodeWord_txnWord]
    rfl
  · rw [encode_write, decodeWord_txnWord]
    rfl

/-- A word that decodes is made of its row's `WE` and `ADDR` and of a `WDATA` that is a write's operand (R84). -/
theorem txnWord_of_decodeWord_ok {w : BusWord} {i : Instr} (decodes : decodeWord w = .ok i) :
    ∃ (r : Reg) (v : Word),
      (w = txnWord false r.offset v ∧ i = r.read) ∨ (w = txnWord true r.offset v ∧ i = r.write v) := by
  rcases decodeWord_cases w with ⟨r, address, row⟩ | ⟨-, rejects⟩
  · have fields := txnWord_fields w
    obtain rfl : (if weOf w then r.write (wdataOf w) else r.read) = i := Decoded.ok.inj (row.symm.trans decodes)
    refine ⟨r, wdataOf w, ?_⟩
    rw [address] at fields
    cases we : weOf w <;> rw [we] at fields
    · exact .inl ⟨fields.symm, rfl⟩
    · exact .inr ⟨fields.symm, rfl⟩
  · cases rejects.symm.trans decodes

/-! ### The statements -/

/-- Settles O4: a stored word decodes as the word, and the word of a transaction decodes to that transaction. -/
theorem decodeOfEncodeIsIdentity : Obligations.DecodeOfEncodeIsIdentity := fun i _ =>
  ⟨decodeWord_encode i, (decodeBytes_wordBytes (encode i)).trans (decodeWord_encode i)⟩

/-- Settles O5: the mask takes `WDATA` out of a word that decodes, and `WDATA` is what a write's word adds to its
row's `match` value. -/
theorem decodedWordHasItsRow : Obligations.DecodedWordHasItsRow := by
  intro w i decodes
  obtain ⟨r, v, ⟨rfl, rfl⟩ | ⟨rfl, rfl⟩⟩ := txnWord_of_decodeWord_ok decodes
  · simp [txnWord_and_opcodeMask, opcode_read, encode_read]
  · simp [txnWord_and_opcodeMask, opcode_write, encode_write]

/-- Settles O3: each of the ten words is `txnWord` of its row's fields; the two others have an address without a
register. -/
theorem tableWordsDecode : Obligations.TableWordsDecode :=
  ⟨decodeWord_txnWord false .pwmCsr 0, decodeWord_txnWord true .pwmCsr 1, decodeWord_txnWord true .pwmDiv 0x400,
    decodeWord_txnWord false .pwmCtr 0, decodeWord_txnWord true .pwmCc 2871, decodeWord_txnWord true .pwmTop 39061,
    decodeWord_txnWord true .tmrCsr 3, decodeWord_txnWord false .tmrCnt 0, decodeWord_txnWord true .tmrMatch 1249999,
    decodeWord_txnWord true .tmrIntr 1, by decide, by decide⟩

end Sys2Proof

/-! PROOFS. The step `Clk` on the bus: each transaction's next state as the idle clock edge with its register's elements
over it, the elements that no other transaction touches, the illegal transaction, and the idle cycle
(40_clock_step_and_bus.md R100 to R122). -/

namespace Sys2Proof.Machine

/-! ### The fields of `WDATA` as values (R82) -/

/-- A bit whose number is `n` is 1 exactly where `n` is 1. -/
theorem eq_decide_of_toNat {b : Bool} {n : Nat} (number : b.toNat = n) : b = decide (n = 1) := by
  subst number
  cases b <;> rfl

/-- A bit whose number is `n` is 0 exactly where `n` is 0. -/
theorem not_eq_decide_of_toNat {b : Bool} {n : Nat} (number : b.toNat = n) : (!b) = decide (n = 0) := by
  subst number
  cases b <;> rfl

/-- A word of width `n` whose number is `m` modulo `2 ^ n`. -/
theorem eq_ofNat_of_toNat {n m : Nat} {x : BitVec n} (number : x.toNat = m % 2 ^ n) : x = BitVec.ofNat n m :=
  BitVec.eq_of_toNat_eq (number.trans (BitVec.toNat_ofNat m n).symm)

section FieldValues
variable (v : Word)

theorem fieldEn_eq_decide : fieldEn v = decide (v.toNat % 2 = 1) := eq_decide_of_toNat (fieldEn_toNat v)

theorem fieldIe_eq_decide : fieldIe v = decide (v.toNat / 2 % 2 = 1) := eq_decide_of_toNat (fieldIe_toNat v)

/-- `IP_CLR` stands at the bit of `EN`. -/
theorem not_fieldIpClr : (!fieldIpClr v) = decide (v.toNat % 2 = 0) := not_eq_decide_of_toNat (fieldEn_toNat v)

/-- `OVR_CLR` stands at the bit of `IE`. -/
theorem not_fieldOvrClr : (!fieldOvrClr v) = decide (v.toNat / 2 % 2 = 0) := not_eq_decide_of_toNat (fieldIe_toNat v)

theorem fieldInt_eq_ofNat : fieldInt v = BitVec.ofNat 8 (v.toNat / 16) := eq_ofNat_of_toNat (fieldInt_toNat v)

theorem fieldFrac_eq_ofNat : fieldFrac v = BitVec.ofNat 4 v.toNat := eq_ofNat_of_toNat (fieldFrac_toNat v)

theorem fieldLevel_eq_ofNat : fieldLevel v = BitVec.ofNat 17 v.toNat := eq_ofNat_of_toNat (fieldLevel_toNat v)

theorem fieldWrap_eq_ofNat : fieldWrap v = BitVec.ofNat 16 v.toNat := eq_ofNat_of_toNat (fieldWrap_toNat v)

/-- The divider's integer part is refused exactly where bits 11:4 are 0 (R106). -/
theorem fieldInt_ne_zero_iff : fieldInt v ≠ 0 ↔ v.toNat / 16 % 256 ≠ 0 := by
  rw [← fieldInt_toNat, Ne, BitVec.toNat_eq]
  rfl

end FieldValues

/-! ### The read values as words (R40) -/

/-- One bit in a word. -/
theorem setWidth_ofBool (b : Bool) : (BitVec.ofBool b).setWidth 32 = if b then 1 else 0 := by
  cases b <;> rfl

/-- Two bits in a word. -/
theorem setWidth_ofBool_append (high low : Bool) :
    (BitVec.ofBool high ++ BitVec.ofBool low).setWidth 32 =
      ((if high then 2 else 0) + (if low then 1 else 0) : Word) := by
  revert high low
  decide

/-- The divider reads as its sixteenths (R22). -/
theorem readReg_pwmDiv (h : Pwmt) : h.readReg .pwmDiv = BitVec.ofNat 32 h.div16 := by
  rw [← readReg_pwmDiv_toNat, BitVec.ofNat_toNat, BitVec.setWidth_eq]

/-! ### The block's edge, with a write over the idle edge -/

/-- Without a match and without a clear both flags stay (R152). -/
theorem flagNext_quiet (h : Pwmt) : flagNext h false false false = (h.ip, h.ovr) := by simp [flagNext]

/-- The edge of `WR.TMR_INTR`: a set wins over the clear of `IP`, and the clear comes before the overrun test (R101,
R120, R152). -/
theorem clk_clears (h : Pwmt) (clrIp clrOvr : Bool) :
    clk h { clrIp := clrIp, clrOvr := clrOvr } = { idleClk h with
      ip := h.matchNow || (h.ip && !clrIp)
      ovr := (h.ovr && !clrOvr) || (h.matchNow && h.ip && !clrIp) } := by
  simp only [idleClk, clk, tmrNext_isMatch, flagNext_eq, Bool.and_assoc]

/-- With both units disabled the idle edge holds the three counters at 0 and lets the level follow `CC` (R122, R134,
R153). -/
theorem idleClk_disabled {h : Pwmt} (slice : h.pwmEn = false) (timer : h.tmrEn = false) :
    idleClk h = { h with ctr := 0, acc := 0, ccAct := h.cc, tcnt := 0 } := by
  simp only [idleClk, clk, pwmNext_disabled slice, tmrNext_disabled timer, flagNext_quiet, Option.getD_none]

/-! ### The next state of a read and of a write -/

/-- A register that reads as `x`: its read answers `x` and is otherwise the idle edge (R102). -/
theorem exec_read_eq {s : State} (g : Reg) {x : Word} (value : s.hw.readReg g = x) :
    exec g.read s = .next { s with hw := idleClk s.hw, resp := some { rdata := x, err := false } } := by
  rw [exec_read, ← value]
  rfl

/-- A write whose edge leaves the block `k`: the next state is `k` with the response `(0, 0)` (R102). -/
theorem exec_write_eq {i : Instr} {s : State} {b : BusWrite} {k : Pwmt} (writes : exec i s = .next (s.writeCycle b))
    (edge : clk s.hw b = k) :
    exec i s = .next { s with hw := k, resp := some { rdata := 0, err := false } } := by
  rw [writes, ← edge]
  rfl

section Writes
variable (v : Word) (s : State)

theorem exec_wrPwmCtr : exec (.wrPwmCtr v) s = .next (s.writeCycle {}) := rfl

theorem exec_wrTmrCnt : exec (.wrTmrCnt v) s = .next (s.writeCycle {}) := rfl

theorem exec_wrTmrIntr :
    exec (.wrTmrIntr v) s = .next (s.writeCycle { clrIp := fieldIpClr v, clrOvr := fieldOvrClr v }) := rfl

variable {v s}

/-- `WR.PWM_DIV`, ignored: the slice is enabled, or `INT` is 0 (R106). -/
theorem exec_wrPwmDiv_ignored (ignored : ¬(s.hw.pwmEn = false ∧ v.toNat / 16 % 256 ≠ 0)) :
    exec (.wrPwmDiv v) s = .next (s.writeCycle {}) := by
  rw [← fieldInt_ne_zero_iff] at ignored
  exact if_neg ignored

/-- `WR.PWM_TOP`, locked (R112). -/
theorem exec_wrPwmTop_locked (en : s.hw.pwmEn = true) : exec (.wrPwmTop v) s = .next (s.writeCycle {}) :=
  if_neg (by simp [en])

/-- `WR.TMR_MATCH`, locked (R118). -/
theorem exec_wrTmrMatch_locked (en : s.hw.tmrEn = true) : exec (.wrTmrMatch v) s = .next (s.writeCycle {}) :=
  if_neg (by simp [en])

end Writes

/-! ### Whose write it is -/

/-- `w` writes no bus-written element but those of the register that `i` writes (R101). -/
structure BusWrite.OwnedBy (i : Instr) (w : BusWrite) : Prop where
  slice_enable : (∀ v, i ≠ .wrPwmCsr v) → w.pwmEn = none
  divider : (∀ v, i ≠ .wrPwmDiv v) → w.divInt = none ∧ w.divFrac = none
  wrap : (∀ v, i ≠ .wrPwmTop v) → w.top = none
  level : (∀ v, i ≠ .wrPwmCc v) → w.cc = none
  timer_enables : (∀ v, i ≠ .wrTmrCsr v) → w.tmrEn = none ∧ w.tmrIe = none
  match_value : (∀ v, i ≠ .wrTmrMatch v) → w.tmatch = none

/-- The clear bits of `WR.TMR_INTR`, or nothing at all, write no bus-written element. -/
theorem ownedBy_clears (i : Instr) (clrIp clrOvr : Bool) :
    BusWrite.OwnedBy i { clrIp := clrIp, clrOvr := clrOvr } :=
  ⟨fun _ => rfl, fun _ => ⟨rfl, rfl⟩, fun _ => rfl, fun _ => rfl, fun _ => ⟨rfl, rfl⟩, fun _ => rfl⟩

/-- The write of a register writes that register's elements, where it is not locked or ignored (R104 to R120). -/
theorem exec_write_owned (g : Reg) (v : Word) (s : State) :
    ∃ w, exec (g.write v) s = .next (s.writeCycle w) ∧ w.OwnedBy (g.write v) := by
  have nothing := ownedBy_clears (g.write v) false false
  cases g with
  | pwmCsr => exact ⟨_, exec_wrPwmCsr v s, { nothing with slice_enable := fun other => absurd rfl (other v) }⟩
  | pwmDiv =>
    by_cases accepted : s.hw.pwmEn = false ∧ v.toNat / 16 % 256 ≠ 0
    · obtain ⟨en, int⟩ := accepted
      exact ⟨_, exec_wrPwmDiv_accepted en int, { nothing with divider := fun other => absurd rfl (other v) }⟩
    · exact ⟨_, exec_wrPwmDiv_ignored accepted, nothing⟩
  | pwmCtr => exact ⟨_, exec_wrPwmCtr v s, nothing⟩
  | pwmCc => exact ⟨_, exec_wrPwmCc v s, { nothing with level := fun other => absurd rfl (other v) }⟩
  | pwmTop =>
    cases en : s.hw.pwmEn with
    | false => exact ⟨_, exec_wrPwmTop_accepted en, { nothing with wrap := fun other => absurd rfl (other v) }⟩
    | true => exact ⟨_, exec_wrPwmTop_locked en, nothing⟩
  | tmrCsr => exact ⟨_, exec_wrTmrCsr v s, { nothing with timer_enables := fun other => absurd rfl (other v) }⟩
  | tmrCnt => exact ⟨_, exec_wrTmrCnt v s, nothing⟩
  | tmrMatch =>
    cases en : s.hw.tmrEn with
    | false =>
      exact ⟨_, exec_wrTmrMatch_accepted en, { nothing with match_value := fun other => absurd rfl (other v) }⟩
    | true => exact ⟨_, exec_wrTmrMatch_locked en, nothing⟩
  | tmrIntr => exact ⟨_, exec_wrTmrIntr v s, ownedBy_clears _ _ _⟩

/-- Every transaction is one clock edge that writes at most its own register's elements; a read writes none (R101). -/
theorem exec_owned (i : Instr) (s : State) : ∃ (w : BusWrite) (r : Option Response),
    w.OwnedBy i ∧ exec i s = .next (s.cycle w r) := by
  rcases instr_read_or_write i with ⟨g, rfl⟩ | ⟨g, v, rfl⟩
  · exact ⟨_, _, ownedBy_clears _ false false, exec_read g s⟩
  · obtain ⟨w, writes, owned⟩ := exec_write_owned g v s
    exact ⟨w, _, owned, writes⟩

/-! ### An illegal transaction -/

/-- A word that is rejected is an illegal cycle (R86, R121). -/
theorem present_of_decode_reject {w : BusWord} {r : Reject} (rejects : decodeWord w = .reject r) (s : State) :
    present w s = .next (s.illegalCycle (addrOf w) (weOf w)) := by
  simp only [present, rejects]

/-- A host that the cycle has stopped goes no further (R229). -/
theorem finishTxn_halted (P : Config.Params) (a : AfterTxn) {s : State} (stopped : s.host.halted = true) :
    finishTxn P a s = .next s := by
  simp only [finishTxn, stopped, if_true]

/-! ### The statements -/

/-- Settles O22: the write carries the two clear bits, and `clk_clears` is its edge. -/
theorem wrTmrIntrClearsFlags : Obligations.WrTmrIntrClearsFlags := by
  intro v s
  refine exec_write_eq (exec_wrTmrIntr v s) ?_
  rw [clk_clears, not_fieldIpClr, not_fieldOvrClr]

/-- Settles O24: an element that the transaction does not own has nothing written to it, and the edge keeps it. -/
theorem onlyItsWriteChangesAnElement : Obligations.OnlyItsWriteChangesAnElement := by
  intro i s t completes
  obtain ⟨w, r, owned, cycle⟩ := exec_owned i s
  cases cycle.symm.trans completes
  refine ⟨fun other => ?_, fun other => ?_, fun other => ?_, fun other => ?_, fun other => ?_, fun other => ?_,
    rfl, rfl, rfl⟩
  · simp [owned.slice_enable other]
  · simp [owned.divider other]
  · simp [owned.wrap other]
  · simp [owned.level other]
  · simp [owned.timer_enables other]
  · simp [owned.match_value other]

/-- Settles O9: the cycle is `illegalCycle`, which halts the host, so that nothing follows it. -/
theorem illegalTransactionIsBusError : Obligations.IllegalTransactionIsBusError := by
  constructor
  · intro s w rest r ports rejects
    rw [step_of_port ports, present_of_decode_reject rejects]
    rfl
  · intro s s' x r noInput move rejects
    rw [step_of_host_present noInput move, present_of_decode_reject rejects]
    exact finishTxn_halted Config.params x.after rfl

/-- Settles O13: the read values of R40. -/
theorem pwmReadsAnswerThePreState : Obligations.PwmReadsAnswerThePreState := fun s =>
  ⟨exec_read_eq .pwmCsr (setWidth_ofBool s.hw.pwmEn), exec_read_eq .pwmDiv (readReg_pwmDiv s.hw),
    exec_read_eq .pwmCtr (BitVec.ofNat_toNat 32 s.hw.ctr).symm,
    exec_read_eq .pwmCc (BitVec.ofNat_toNat 32 s.hw.cc).symm,
    exec_read_eq .pwmTop (BitVec.ofNat_toNat 32 s.hw.top).symm⟩

/-- Settles O14: the read values of R40; a read of `TMR_INTR` has no clear bits. -/
theorem timerReadsAnswerThePreState : Obligations.TimerReadsAnswerThePreState := fun s =>
  ⟨exec_read_eq .tmrCsr (setWidth_ofBool_append s.hw.tmrIe s.hw.tmrEn), exec_read_eq .tmrCnt rfl,
    exec_read_eq .tmrMatch rfl, exec_read_eq .tmrIntr (setWidth_ofBool_append s.hw.ovr s.hw.ip)⟩

/-- Settles O15: the write carries `EN`. -/
theorem wrPwmCsrSetsEnable : Obligations.WrPwmCsrSetsEnable := by
  intro v s
  rw [← fieldEn_eq_decide]
  exact exec_write_eq (exec_wrPwmCsr v s) rfl

/-- Settles O16: the accepted write carries both fields, the ignored one nothing. -/
theorem wrPwmDivIsLockedAndRefusesZero : Obligations.WrPwmDivIsLockedAndRefusesZero := by
  intro v s
  constructor
  · rintro ⟨en, int⟩
    rw [← fieldInt_eq_ofNat, ← fieldFrac_eq_ofNat]
    exact exec_write_eq (exec_wrPwmDiv_accepted en int) rfl
  · intro ignored
    exact exec_write_eq (exec_wrPwmDiv_ignored ignored) rfl

/-- Settles O17: the write carries `LEVEL`, whatever the slice does. -/
theorem wrPwmCcStoresLevel : Obligations.WrPwmCcStoresLevel := by
  intro v s
  rw [← fieldLevel_eq_ofNat]
  exact exec_write_eq (exec_wrPwmCc v s) rfl

/-- Settles O18: `WRAP` is carried exactly where the pre-state's `PWM_EN` is 0. -/
theorem wrPwmTopIsLocked : Obligations.WrPwmTopIsLocked := by
  intro v s
  rw [← fieldWrap_eq_ofNat]
  cases en : s.hw.pwmEn with
  | true => exact exec_write_eq (exec_wrPwmTop_locked en) rfl
  | false => exact exec_write_eq (exec_wrPwmTop_accepted en) rfl

/-- Settles O19: both writes carry nothing. -/
theorem readOnlyWritesDoNothing : Obligations.ReadOnlyWritesDoNothing := fun v s =>
  ⟨exec_write_eq (exec_wrPwmCtr v s) rfl, exec_write_eq (exec_wrTmrCnt v s) rfl⟩

/-- Settles O20: the write carries `EN` and `IE`. -/
theorem wrTmrCsrSetsEnables : Obligations.WrTmrCsrSetsEnables := by
  intro v s
  rw [← fieldEn_eq_decide, ← fieldIe_eq_decide]
  exact exec_write_eq (exec_wrTmrCsr v s) rfl

/-- Settles O21: the operand is carried exactly where the pre-state's `TMR_EN` is 0. -/
theorem wrTmrMatchIsLocked : Obligations.WrTmrMatchIsLocked := by
  intro v s
  cases en : s.hw.tmrEn with
  | true => exact exec_write_eq (exec_wrTmrMatch_locked en) rfl
  | false => exact exec_write_eq (exec_wrTmrMatch_accepted en) rfl

/-- Settles O25: a transaction is one clock edge, and what it writes does not enter these elements of `clk`. -/
theorem hardwareElementsIgnoreTheBus : Obligations.HardwareElementsIgnoreTheBus := by
  intro i s t completes
  obtain ⟨w, -, edge⟩ := exec_inv i s
  cases edge.symm.trans completes
  exact ⟨rfl, rfl, rfl, rfl⟩

/-- Settles O35: the elements that the idle edge of a disabled block sets have those values already. -/
theorem idleBlockIsAFixedPoint : Obligations.IdleBlockIsAFixedPoint := by
  intro h slice timer ctr acc tcnt settled
  calc idleClk h
    _ = { h with ctr := 0, acc := 0, ccAct := h.cc, tcnt := 0 } := idleClk_disabled slice timer
    _ = h := by cases h; simp_all

end Sys2Proof.Machine

/-! PROOFS. Runs driven at the ports: a cycle with given bus traffic always has a next state, and a fact about the block
that every such cycle keeps holds after the run (00_scope.md R37; 40_clock_step_and_bus.md R100). -/

namespace Sys2Proof.Machine

section Traffic
variable {b : Option BusWord} {l : List (Option BusWord)} {s t : State}

/-- A cycle that the outside drives without reset is one clock edge with an allowed write (R100). -/
theorem portCycle_clk (b : Option BusWord) (s : State) :
    ∃ t w, portCycle { rst := false, bus := b } s = .next t ∧ t.inputs = s.inputs ∧
      BusWrite.Allowed s.hw w ∧ t.hw = clk s.hw w := by
  obtain ⟨t, cycle, inputs, ⟨reset, -⟩ | ⟨-, w, allowed, edge⟩⟩ := portCycle_inv { rst := false, bus := b } s
  · cases reset
  · exact ⟨t, w, cycle, inputs, allowed, edge⟩

theorem portStep_of_portCycle (cycle : portCycle { rst := false, bus := b } s = .next t) : portStep b s = t := by
  simp only [portStep, cycle]

/-- The outside's next cycle is the head of its traffic, the rest is driven after it (R37). -/
theorem step_withBus_cons (b : Option BusWord) (l : List (Option BusWord)) (s : State) :
    Machine.step (s.withBus (b :: l)) = portCycle { rst := false, bus := b } (s.withBus l) := rfl

/-- A run goes on from where its first step leads. -/
theorem run_succ_of_step {k : Nat} (first : Machine.step s = .next t) :
    Sys2Proof.core.run (k + 1) s = Sys2Proof.core.run k t := by
  have first : Sys2Proof.core.step s = .next t := first
  simp only [Host.Core.run, first]

theorem withBus_of_inputs_eq (inputs : t.inputs = (s.withBus l).inputs) : t.withBus l = t := by
  cases t
  cases inputs
  rfl

/-- A fact `J n` about the block after `n` cycles that each cycle of the admitted traffic carries on to `n + 1` holds
after the run of that traffic, and the run has a last state. -/
theorem exists_run_withBus {J : Nat → Pwmt → Prop} {admitted : Option BusWord → Prop}
    (carries : ∀ {n b s t}, admitted b → J n s.hw → portCycle { rst := false, bus := b } s = .next t → J (n + 1) t.hw)
    (traffic : ∀ b ∈ l, admitted b) {n : Nat} (start : J n s.hw) :
    ∃ t : State, Sys2Proof.core.run l.length (s.withBus l) = .next t ∧ J (n + l.length) t.hw := by
  induction l generalizing n s with
  | nil => exact ⟨_, rfl, start⟩
  | cons b l ih =>
    obtain ⟨head, tail⟩ := List.forall_mem_cons.mp traffic
    obtain ⟨u, -, cycle, inputs, -, -⟩ := portCycle_clk b (s.withBus l)
    obtain ⟨t, run, last⟩ := ih tail (carries (s := s.withBus l) head start cycle)
    rw [withBus_of_inputs_eq inputs] at run
    refine ⟨t, (run_succ_of_step ((step_withBus_cons b l s).trans cycle)).trans run, ?_⟩
    rwa [List.length_cons, Nat.add_comm l.length, ← Nat.add_assoc]

/-- Traffic that does not disable the slice leaves an enabled one enabled (R104). -/
theorem portCycle_pwmEn (keeps : keepsSlice b = true) (en : s.hw.pwmEn = true)
    (cycle : portCycle { rst := false, bus := b } s = .next t) : t.hw.pwmEn = true := by
  cases b with
  | none =>
    cases cycle
    exact en
  | some w =>
    change present w s = .next t at cycle
    cases decoded : decodeWord w with
    | reject r =>
      rw [present_of_decode_reject decoded] at cycle
      cases cycle
      exact en
    | ok i =>
      rw [present_of_decode_ok decoded] at cycle
      by_cases enable : ∃ v, i = .wrPwmCsr v
      · obtain ⟨v, rfl⟩ := enable
        rw [exec_wrPwmCsr] at cycle
        cases cycle
        simpa [keepsSlice, decoded] using keeps
      · obtain ⟨kept, -⟩ := onlyItsWriteChangesAnElement i s t cycle
        rw [kept fun v other => enable ⟨v, other⟩, en]

end Traffic

end Sys2Proof.Machine

/-! PROOFS. The PWM unit: what a cycle does to its counters, as numbers; the place of a running slice in its frame,
which every cycle moves on by 16 sixteenths; and the counter and the high time that follow from it (41_pwm_unit.md R130
to R138). -/

namespace Sys2Proof.Machine

/-! ### `PwmNext` as numbers -/

section Numbers
variable {h : Pwmt}

/-- Without a tick the sum stays below the divider and fits `ACC` (R131). -/
theorem pwmNext_hold_acc (en : h.pwmEn = true) (lt : h.acc.toNat + 16 < h.div16) :
    (pwmNext h).acc.toNat = h.acc.toNat + 16 := by
  have divLt := h.div16_lt
  rw [pwmNext_hold en lt, BitVec.toNat_ofNat]
  omega

/-- A tick takes the divider off `ACC`, at `TOP` or below it (R131). -/
theorem pwmNext_tick_acc (en : h.pwmEn = true) (below : h.acc.toNat < h.div16) (ge : h.div16 ≤ h.acc.toNat + 16) :
    (pwmNext h).acc.toNat = h.acc.toNat + 16 - h.div16 := by
  have acc : (pwmNext h).acc = BitVec.ofNat 12 (h.acc.toNat + 16 - h.div16) := by
    by_cases top : h.ctr = h.top
    · rw [pwmNext_wrap en ge top]
    · rw [pwmNext_count en ge top]
  rw [acc, BitVec.toNat_ofNat]
  omega

/-- A tick below `TOP` counts without overflow (R132). -/
theorem pwmNext_count_ctr (en : h.pwmEn = true) (bound : h.ctr.toNat ≤ h.top.toNat)
    (ge : h.div16 ≤ h.acc.toNat + 16) (top : h.ctr ≠ h.top) : (pwmNext h).ctr.toNat = h.ctr.toNat + 1 := by
  rw [pwmNext_count en ge top]
  bv_omega

/-- The level is latched while the slice is disabled and at a wrap (R133). -/
theorem pwmNext_ccAct (h : Pwmt) :
    (pwmNext h).ccAct =
      if h.pwmEn = false ∨ (h.div16 ≤ h.acc.toNat + 16 ∧ h.ctr = h.top) then h.cc else h.ccAct := by
  cases en : h.pwmEn with
  | false => simp [pwmNext_disabled en]
  | true =>
    by_cases tick : h.div16 ≤ h.acc.toNat + 16
    · by_cases top : h.ctr = h.top
      · simp [pwmNext_wrap en tick top, tick, top]
      · simp [pwmNext_count en tick top, top]
    · simp [pwmNext_hold en (Nat.lt_of_not_le tick), tick]

end Numbers

/-! ### The cycle statements -/

/-- Settles O26: the hardware elements come out as in an idle edge, and that edge is `pwmNext`, case by case. -/
theorem pwmUnitInEachCycle : Obligations.PwmUnitInEachCycle := by
  intro i s t ⟨_, below, bound, _⟩ completes
  obtain ⟨ctr, acc, ccAct, -⟩ := hardwareElementsIgnoreTheBus i s t completes
  rw [ctr, acc, ccAct, idleClk_ctr, idleClk_acc, idleClk_ccAct]
  refine ⟨fun disabled => ?_, fun en hold => ?_, fun en tick => ⟨?_, fun top => ?_, fun top => ?_⟩⟩
  · simp [pwmNext_disabled disabled]
  · refine ⟨?_, pwmNext_hold_acc en hold, ?_⟩ <;> rw [pwmNext_hold en hold]
  · exact pwmNext_tick_acc en below tick
  · simp [pwmNext_wrap en tick top]
  · exact ⟨pwmNext_count_ctr en (bound en) tick top, by rw [pwmNext_count en tick top]⟩

/-- Settles O31: a step without reset is one clock edge, whose level is `pwmNext`'s. -/
theorem levelIsLatchedAtTheWrapOnly : Obligations.LevelIsLatchedAtTheWrapOnly := by
  intro s t noReset edge
  obtain ⟨w, -, clocked⟩ := step_hw_of_no_reset noReset edge
  rw [clocked, clk_ccAct, pwmNext_ccAct]

/-- Settles O36: in the cycle of the write the slice is still disabled, so that its counters are at 0 and the level
follows `CC`. -/
theorem enableStartsAFrame : Obligations.EnableStartsAFrame := by
  intro s v disabled bit
  have enabled : fieldEn v = true := by rw [fieldEn_eq_decide, bit]; rfl
  refine ⟨_, exec_wrPwmCsr v s, ?_⟩
  rw [Pwmt.pwmOut_iff]
  simp [pwmNext_disabled disabled, enabled]

/-! ### The place in the frame

One number for both counters: a cycle of a running slice moves it on by 16, and the frame's end is the only place where
it goes back. -/

/-- How many sixteenths of a cycle of the frame have passed (R131, R136). -/
def Pwmt.framePos (h : Pwmt) : Nat := h.div16 * h.ctr.toNat + h.acc.toNat

/-- How many sixteenths of a cycle a frame has (R136). -/
def Pwmt.frameLen (h : Pwmt) : Nat := h.div16 * (h.top.toNat + 1)

section Frame
variable {h : Pwmt} {w : BusWrite}

theorem Pwmt.Inv.framePos_lt (inv : h.Inv) (en : h.pwmEn = true) : h.framePos < h.frameLen := by
  obtain ⟨-, below, bound, -⟩ := inv
  calc h.framePos
    _ < h.div16 * h.ctr.toNat + h.div16 := Nat.add_lt_add_left below _
    _ = h.div16 * (h.ctr.toNat + 1) := rfl
    _ ≤ h.frameLen := Nat.mul_le_mul_left _ (Nat.succ_le_succ (bound en))

theorem Pwmt.Inv.framePos_div (inv : h.Inv) : h.framePos / h.div16 = h.ctr.toNat := by
  obtain ⟨-, below, -, -⟩ := inv
  rw [framePos, Nat.mul_add_div (Nat.zero_lt_of_lt below), Nat.div_eq_of_lt below, Nat.add_zero]

theorem Pwmt.Inv.framePos_mod (inv : h.Inv) : h.framePos % h.div16 = h.acc.toNat := by
  obtain ⟨-, below, -, -⟩ := inv
  rw [framePos, Nat.mul_add_mod, Nat.mod_eq_of_lt below]

/-- The length of the frame of an enabled slice survives the edge (R44 e). -/
theorem clk_frameLen (allowed : w.Allowed h) (en : h.pwmEn = true) : (clk h w).frameLen = h.frameLen := by
  obtain ⟨-, -, top⟩ := clk_slice_locked allowed en
  rw [Pwmt.frameLen, clk_div16_locked allowed en, top, Pwmt.frameLen]

/-- An edge of a running slice moves it on by 16 in the same frame, with the same level, or into the next frame (R131 to
R133). -/
theorem clk_framePos (allowed : w.Allowed h) (inv : h.Inv) (en : h.pwmEn = true) :
    (clk h w).framePos = h.framePos + 16 ∧ (clk h w).ccAct = h.ccAct ∨
      h.frameLen + (clk h w).framePos = h.framePos + 16 := by
  obtain ⟨-, below, bound, -⟩ := inv
  rw [Pwmt.framePos, clk_div16_locked allowed en, clk_ctr, clk_acc, clk_ccAct]
  by_cases tick : h.div16 ≤ h.acc.toNat + 16
  · rw [pwmNext_tick_acc en below tick]
    by_cases top : h.ctr = h.top
    · have zero : (0 : BitVec 16).toNat = 0 := rfl
      right
      simp only [pwmNext_wrap en tick top, Pwmt.frameLen, Pwmt.framePos, top, zero, Nat.mul_add]
      omega
    · left
      rw [pwmNext_count_ctr en (bound en) tick top, pwmNext_count en tick top, Pwmt.framePos, Nat.mul_add]
      exact ⟨by omega, rfl⟩
  · have hold := Nat.lt_of_not_le tick
    left
    rw [pwmNext_hold_acc en hold, pwmNext_hold en hold, Pwmt.framePos]
    exact ⟨rfl, rfl⟩

end Frame

/-! ### A slice that stays enabled -/

/-- A running slice with the divider `D` and the wrap value `T`, `n` cycles after the start of a frame. -/
structure InFrame (D : Nat) (T : BitVec 16) (n : Nat) (h : Pwmt) : Prop where
  inv : h.Inv
  enabled : h.pwmEn = true
  divider : h.div16 = D
  wrap : h.top = T
  place : h.framePos = 16 * n % h.frameLen

section Running
variable {D n : Nat} {T : BitVec 16}

/-- The start of a frame (R137). -/
theorem InFrame.start {h : Pwmt} (inv : h.Inv) (en : h.pwmEn = true) (ctr : h.ctr = 0) (acc : h.acc = 0) :
    InFrame h.div16 h.top 0 h where
  inv := inv
  enabled := en
  divider := rfl
  wrap := rfl
  place := by simp [Pwmt.framePos, ctr, acc]

section Readings
variable {h : Pwmt} (frame : InFrame D T n h)
include frame

theorem InFrame.frameLen_eq : h.frameLen = D * (T.toNat + 1) := by rw [Pwmt.frameLen, frame.divider, frame.wrap]

/-- The counter ticks since the start of the frame (R138). -/
theorem InFrame.ctr_eq : h.ctr.toNat = 16 * n / D % (T.toNat + 1) := by
  rw [← frame.inv.framePos_div, frame.place, frame.frameLen_eq, frame.divider, Nat.mod_mul_right_div_self]

/-- What the ticks have left in the accumulator (R131). -/
theorem InFrame.acc_eq : h.acc.toNat = 16 * n % D := by
  rw [← frame.inv.framePos_mod, frame.place, frame.frameLen_eq, frame.divider, Nat.mod_mul_right_mod]

end Readings

/-- Whatever the bus carries, a slice that it leaves enabled runs on, and before the frame's last cycle it keeps its
level (R131, R133, R138). -/
theorem InFrame.next {b : Option BusWord} {s t : State} (frame : InFrame D T n s.hw)
    (keeps : keepsSlice b = true) (cycle : portCycle { rst := false, bus := b } s = .next t) :
    InFrame D T (n + 1) t.hw ∧ (s.hw.framePos + 16 < s.hw.frameLen → t.hw.ccAct = s.hw.ccAct) := by
  have en := frame.enabled
  have en' := portCycle_pwmEn keeps en cycle
  obtain ⟨u, w, same, -, allowed, edge⟩ := portCycle_clk b s
  cases same.symm.trans cycle
  rw [edge] at en' ⊢
  have inv' := clk_inv allowed frame.inv
  have len := clk_frameLen allowed en
  have inside := inv'.framePos_lt en'
  have moved := clk_framePos allowed frame.inv en
  obtain ⟨-, -, top⟩ := clk_slice_locked allowed en
  refine ⟨⟨inv', en', (clk_div16_locked allowed en).trans frame.divider, top.trans frame.wrap, ?_⟩, fun early => ?_⟩
  · calc (clk s.hw w).framePos
      _ = (s.hw.framePos + 16) % s.hw.frameLen := by
        rw [len] at inside
        rcases moved with ⟨on, -⟩ | next
        · rw [← on, Nat.mod_eq_of_lt inside]
        · rw [← next, Nat.add_mod_left, Nat.mod_eq_of_lt inside]
      _ = 16 * (n + 1) % s.hw.frameLen := by rw [frame.place, Nat.mod_add_mod, Nat.mul_succ]
      _ = 16 * (n + 1) % (clk s.hw w).frameLen := by rw [len]
  · rcases moved with ⟨-, level⟩ | next
    · exact level
    · omega

/-- In a frame with the integer divider `d` the output is high in the first `CC_ACT * d` cycles (R34, R136). -/
theorem InFrame.pwmOut_iff {d : Nat} {h : Pwmt} (frame : InFrame (16 * d) T n h) (early : n < (T.toNat + 1) * d) :
    h.pwmOut = true ↔ n < h.ccAct.toNat * d := by
  have positive : 0 < d := Nat.pos_of_mul_pos_left (Nat.zero_lt_of_lt early)
  have ctr : h.ctr.toNat = n / d := by
    have ticks : n / d < T.toNat + 1 := (Nat.div_lt_iff_lt_mul positive).mpr early
    rw [frame.ctr_eq, Nat.mul_div_mul_left _ _ (by decide), Nat.mod_eq_of_lt ticks]
  rw [h.pwmOut_iff, ctr, Nat.div_lt_iff_lt_mul positive]
  exact and_iff_right frame.enabled

/-- With an integer divider `d` a frame has `P * d` cycles, and only the last of them reaches its end (R136). -/
theorem InFrame.not_last {d : Nat} {h : Pwmt} (frame : InFrame (16 * d) T n h) (early : n + 1 < (T.toNat + 1) * d) :
    h.framePos + 16 < h.frameLen := by
  have len : h.frameLen = 16 * ((T.toNat + 1) * d) := by rw [frame.frameLen_eq, Nat.mul_assoc, Nat.mul_comm d]
  have place : h.framePos = 16 * n := by rw [frame.place, len, Nat.mod_eq_of_lt (by omega)]
  omega

/-- The high cycles left in a frame after `n` of its cycles (R136). -/
theorem InFrame.highCycles_eq {d : Nat} {l : List (Option BusWord)} {s : State} (frame : InFrame (16 * d) T n s.hw)
    (traffic : ∀ b ∈ l, keepsSlice b = true) (rest : n + l.length = (T.toNat + 1) * d) :
    highCycles l s = min (s.hw.ccAct.toNat * d) ((T.toNat + 1) * d) - n := by
  induction l generalizing n s with
  | nil => simp [highCycles, ← rest]
  | cons b l ih =>
    rw [List.length_cons] at rest
    obtain ⟨head, tail⟩ := List.forall_mem_cons.mp traffic
    obtain ⟨t, -, cycle, -, -, -⟩ := portCycle_clk b s
    obtain ⟨frame', keepsLevel⟩ := frame.next head cycle
    -- Only the frame's last cycle can change the level, and after it no cycle is left.
    have level : min (t.hw.ccAct.toNat * d) ((T.toNat + 1) * d) - (n + 1) =
        min (s.hw.ccAct.toNat * d) ((T.toNat + 1) * d) - (n + 1) := by
      by_cases last : n + 1 = (T.toNat + 1) * d
      · omega
      · rw [keepsLevel (frame.not_last (by omega))]
    rw [highCycles, portStep_of_portCycle cycle, ih frame' tail (by omega), level]
    simp only [frame.pwmOut_iff (show n < (T.toNat + 1) * d by omega)]
    split <;> omega

end Running

/-! ### The run statements -/

/-- Settles O40: the run carries the place in the frame, and the place gives both counters. -/
theorem pwmCounterClosedForm : Obligations.PwmCounterClosedForm := by
  intro s l inv en ctr acc traffic
  obtain ⟨t, run, frame⟩ := exists_run_withBus (J := InFrame s.hw.div16 s.hw.top)
    (fun keeps frame cycle => (frame.next keeps cycle).1) traffic (InFrame.start inv en ctr acc)
  rw [Nat.zero_add] at frame
  exact ⟨t, run, frame.enabled, frame.ctr_eq, frame.acc_eq⟩

/-- Settles O42: at the start of the frame no cycle of it has passed, so that all its high cycles are left. -/
theorem frameIsHighForItsLevel : Obligations.FrameIsHighForItsLevel := by
  intro s l inv en integer ctr acc traffic length
  have divider : s.hw.div16 = 16 * s.hw.divInt.toNat := by simp [Pwmt.div16, integer]
  have frame : InFrame (16 * s.hw.divInt.toNat) s.hw.top 0 s.hw := divider ▸ InFrame.start inv en ctr acc
  rw [frame.highCycles_eq traffic (by omega), Nat.sub_zero, Nat.mul_min_mul_right]

end Sys2Proof.Machine

/-! PROOFS. The timer unit: what a cycle does to its counter and its flags, with or without a match; and the period of a
timer that stays enabled, whatever the bus carries (42_timer_unit.md R150 to R157). -/

namespace Sys2Proof.Machine

/-! ### A match, and a count as a number -/

section TimerEdge
variable {h : Pwmt}

/-- A match is an enabled timer at its match value (R151). -/
theorem Pwmt.matchNow_iff (h : Pwmt) : h.matchNow = true ↔ h.tmrEn = true ∧ h.tcnt = h.tmatch := by
  rw [Pwmt.matchNow, Bool.and_eq_true, decide_eq_true_iff]

/-- A match takes effect in the edge, whatever is written: set wins over clear, and the counter reads the pre-state
(R101, R151, R157). -/
theorem clk_match (w : BusWrite) (hit : h.matchNow = true) : (clk h w).ip = true ∧ (clk h w).tcnt = 0 := by
  obtain ⟨en, eq⟩ := h.matchNow_iff.mp hit
  rw [clk_ip, tmrNext_isMatch, flagNext_eq, hit, clk_tcnt, tmrNext_match en eq]
  exact ⟨rfl, rfl⟩

/-- The flags after an edge that clears neither (R152). -/
theorem clk_flags_of_no_clear {w : BusWrite} (ip : w.clrIp = false) (ovr : w.clrOvr = false) :
    (clk h w).ip = (h.ip || h.matchNow) ∧ (clk h w).ovr = (h.ovr || (h.matchNow && h.ip)) := by
  rw [clk_ip, clk_ovr, tmrNext_isMatch, flagNext_eq, ip, ovr]
  simp [Bool.or_comm]

/-- The addition that the hardware makes, taken modulo 2^32 (R150). -/
theorem tmrNext_count_tcnt (en : h.tmrEn = true) (ne : h.tcnt ≠ h.tmatch) :
    (tmrNext h).tcnt.toNat = (h.tcnt.toNat + 1) % 2 ^ 32 := by
  rw [tmrNext_count en ne, BitVec.toNat_add]
  rfl

/-- A counter that is at most `TMATCH` counts below it without overflow (R150). -/
theorem tmrNext_count_tcnt_of_le (en : h.tmrEn = true) (bound : h.tcnt.toNat ≤ h.tmatch.toNat)
    (ne : h.tcnt ≠ h.tmatch) : (tmrNext h).tcnt.toNat = h.tcnt.toNat + 1 := by
  rw [tmrNext_count_tcnt en ne]
  bv_omega

/-- An enabled counter that is at most `TMATCH` counts modulo `TMATCH + 1` (R150, R154). -/
theorem tmrNext_tcnt_mod (en : h.tmrEn = true) (bound : h.tcnt.toNat ≤ h.tmatch.toNat) :
    (tmrNext h).tcnt.toNat = (h.tcnt.toNat + 1) % (h.tmatch.toNat + 1) := by
  by_cases eq : h.tcnt = h.tmatch
  · rw [tmrNext_match en eq, eq, Nat.mod_self]
    rfl
  · have below : h.tcnt.toNat + 1 < h.tmatch.toNat + 1 := by bv_omega
    rw [tmrNext_count_tcnt_of_le en bound eq, Nat.mod_eq_of_lt below]

/-- An enabled counter that is at most `TMATCH` comes to 0 by a match only (R150, R151). -/
theorem matchNow_of_tmrNext_tcnt_eq_zero (en : h.tmrEn = true) (bound : h.tcnt.toNat ≤ h.tmatch.toNat)
    (zero : (tmrNext h).tcnt.toNat = 0) : h.matchNow = true := by
  refine h.matchNow_iff.mpr ⟨en, ?_⟩
  by_contra ne
  rw [tmrNext_count_tcnt_of_le en bound ne] at zero
  exact Nat.succ_ne_zero _ zero

end TimerEdge

/-! ### The transactions that clear no flag -/

/-- Every transaction but `WR.TMR_INTR` is one clock edge that clears neither flag (R101, R120). -/
theorem exec_clears_no_flag {i : Instr} (other : ∀ v, i ≠ .wrTmrIntr v) (s : State) :
    ∃ (w : BusWrite) (r : Option Response),
      exec i s = .next (s.cycle w r) ∧ w.clrIp = false ∧ w.clrOvr = false := by
  cases i
  case wrTmrIntr v => exact absurd rfl (other v)
  case wrPwmDiv v =>
    by_cases accepted : s.hw.pwmEn = false ∧ v.toNat / 16 % 256 ≠ 0
    · obtain ⟨en, int⟩ := accepted
      exact ⟨_, _, exec_wrPwmDiv_accepted en int, rfl, rfl⟩
    · exact ⟨_, _, exec_wrPwmDiv_ignored accepted, rfl, rfl⟩
  case wrPwmTop v =>
    cases en : s.hw.pwmEn with
    | false => exact ⟨_, _, exec_wrPwmTop_accepted en, rfl, rfl⟩
    | true => exact ⟨_, _, exec_wrPwmTop_locked en, rfl, rfl⟩
  case wrTmrMatch v =>
    cases en : s.hw.tmrEn with
    | false => exact ⟨_, _, exec_wrTmrMatch_accepted en, rfl, rfl⟩
    | true => exact ⟨_, _, exec_wrTmrMatch_locked en, rfl, rfl⟩
  -- The other rows write without a condition, or read.
  all_goals exact ⟨_, _, rfl, rfl, rfl⟩

/-! ### The cycle statements -/

/-- Settles O27: `TCNT` comes out as in an idle edge, and that edge is `tmrNext`, case by case. -/
theorem timerUnitInEachCycle : Obligations.TimerUnitInEachCycle := by
  intro i s t completes
  obtain ⟨-, -, -, tcnt⟩ := hardwareElementsIgnoreTheBus i s t completes
  rw [tcnt, idleClk_tcnt]
  refine ⟨fun disabled => ?_, fun en eq => ?_, tmrNext_count_tcnt⟩
  · rw [tmrNext_disabled disabled]
  · rw [tmrNext_match en eq]

/-- Settles O28: the transaction is one clock edge that clears no flag. -/
theorem flagsWithoutAClear : Obligations.FlagsWithoutAClear := by
  intro i s t other completes
  obtain ⟨w, r, cycle, ip, ovr⟩ := exec_clears_no_flag other s
  cases cycle.symm.trans completes
  exact clk_flags_of_no_clear ip ovr

/-- Settles O29: a step without reset is one clock edge, and the edge of a match is `clk_match`. -/
theorem matchIsNeverLost : Obligations.MatchIsNeverLost := by
  intro s t noReset hit edge
  obtain ⟨w, -, clocked⟩ := step_hw_of_no_reset noReset edge
  rw [clocked]
  exact clk_match w hit

/-- Settles O37: the disable is written in the same edge that takes the match from the pre-state. -/
theorem disableRacingAMatchKeepsTheEvent : Obligations.DisableRacingAMatchKeepsTheEvent := by
  intro s v hit bit
  have disabled : fieldEn v = false := by rw [fieldEn_eq_decide, bit]; rfl
  obtain ⟨ip, tcnt⟩ := clk_match { tmrEn := some (fieldEn v), tmrIe := some (fieldIe v) } hit
  exact ⟨_, exec_wrTmrCsr v s, disabled, tcnt, ip⟩

/-! ### A timer that stays enabled -/

/-- A running timer with the match value `T`, `n` cycles after it stood at 0: its place in the period, and the flag that
the match at the end of a period has left (R154). -/
structure InPeriod (T : BitVec 32) (n : Nat) (h : Pwmt) : Prop where
  enabled : h.tmrEn = true
  match_value : h.tmatch = T
  place : h.tcnt.toNat = n % (T.toNat + 1)
  pending : 0 < n → n % (T.toNat + 1) = 0 → h.ip = true

section Running
variable {b : Option BusWord} {s t : State} {T : BitVec 32} {n : Nat}

/-- A cycle that the outside drives without reset is an idle edge of the block, or a transaction (R100, R121, R122). -/
theorem portCycle_idle_or_exec (cycle : portCycle { rst := false, bus := b } s = .next t) :
    t.hw = idleClk s.hw ∨ ∃ w i, b = some w ∧ decodeWord w = .ok i ∧ exec i s = .next t := by
  cases b with
  | none =>
    cases cycle
    exact .inl rfl
  | some w =>
    change present w s = .next t at cycle
    cases decoded : decodeWord w with
    | reject r =>
      rw [present_of_decode_reject decoded] at cycle
      cases cycle
      exact .inl rfl
    | ok i =>
      rw [present_of_decode_ok decoded] at cycle
      exact .inr ⟨w, i, rfl, decoded, cycle⟩

/-- Traffic that does not disable the timer leaves an enabled one enabled (R114). -/
theorem portCycle_tmrEn (keeps : keepsTimer b = true) (en : s.hw.tmrEn = true)
    (cycle : portCycle { rst := false, bus := b } s = .next t) : t.hw.tmrEn = true := by
  rcases portCycle_idle_or_exec cycle with idle | ⟨w, i, rfl, decoded, completes⟩
  · rw [idle, idleClk_tmrEn, en]
  · by_cases enable : ∃ v, i = .wrTmrCsr v
    · obtain ⟨v, rfl⟩ := enable
      rw [exec_wrTmrCsr] at completes
      cases completes
      simpa [keepsTimer, decoded] using keeps
    · obtain ⟨-, -, -, -, kept, -⟩ := onlyItsWriteChangesAnElement i s t completes
      obtain ⟨kept, -⟩ := kept fun v other => enable ⟨v, other⟩
      rw [kept, en]

/-- The start of a period (R154). -/
theorem InPeriod.start {h : Pwmt} (en : h.tmrEn = true) (tcnt : h.tcnt = 0) : InPeriod h.tmatch 0 h where
  enabled := en
  match_value := rfl
  place := by rw [tcnt, Nat.zero_mod]; rfl
  pending := fun positive => absurd positive (Nat.lt_irrefl 0)

/-- A timer in its period is at most at its match value (R44 d). -/
theorem InPeriod.tcnt_le {h : Pwmt} (period : InPeriod T n h) : h.tcnt.toNat ≤ h.tmatch.toNat := by
  rw [period.place, period.match_value]
  exact Nat.le_of_lt_succ (Nat.mod_lt n (Nat.succ_pos _))

/-- Whatever the bus carries, a timer that it leaves enabled runs on (R101, R118, R154). -/
theorem InPeriod.next (period : InPeriod T n s.hw) (keeps : keepsTimer b = true)
    (cycle : portCycle { rst := false, bus := b } s = .next t) : InPeriod T (n + 1) t.hw := by
  have en := period.enabled
  have bound := period.tcnt_le
  have en' := portCycle_tmrEn keeps en cycle
  obtain ⟨u, w, same, -, allowed, edge⟩ := portCycle_clk b s
  cases same.symm.trans cycle
  rw [edge] at en' ⊢
  have moved : (clk s.hw w).tcnt.toNat = (n + 1) % (T.toNat + 1) := by
    rw [clk_tcnt, tmrNext_tcnt_mod en bound, period.place, period.match_value, Nat.mod_add_mod]
  refine ⟨en', (clk_tmatch_locked allowed en).trans period.match_value, moved, fun _ last => ?_⟩
  have hit := matchNow_of_tmrNext_tcnt_eq_zero en bound (moved.trans last)
  exact (clk_match w hit).1

end Running

/-! ### The run statement -/

/-- Settles O41: the run carries the place in the period and the flag. -/
theorem timerPeriodIsExact : Obligations.TimerPeriodIsExact := by
  intro s l en tcnt traffic
  obtain ⟨t, run, period⟩ := exists_run_withBus (J := InPeriod s.hw.tmatch)
    (fun keeps period cycle => period.next keeps cycle) traffic (InPeriod.start en tcnt)
  rw [Nat.zero_add] at period
  exact ⟨t, run, period.enabled, period.match_value, period.place, period.pending⟩

end Sys2Proof.Machine

/-! PROOFS. The PWM Back-End: the level of a pulse and the period as roundings of the exact rationals, the checks of
`configure`, and what the words of `configure` and `set_pulse` leave in the block (43_pwm_backend.md R170 to R180). -/

namespace Sys2Proof.Machine

open Config (Params)

/-! ### The level of a pulse (R175 to R177) -/

section Level
variable (p : Int) (n : Nat)

theorem levelOf_eq : levelOf p n = clampedPulse p * n / 20000 := rfl

theorem clampedPulse_le : clampedPulse p ≤ 20000 := by
  have cases := clampedPulse_cases p
  omega

theorem clampedPulse_mono {p p' : Int} (le : p ≤ p') : clampedPulse p ≤ clampedPulse p' := by
  have cases := clampedPulse_cases p
  have cases' := clampedPulse_cases p'
  omega

theorem clampedPulse_of_nonpos {p : Int} (low : p ≤ 0) : clampedPulse p = 0 := by
  have cases := clampedPulse_cases p
  omega

theorem clampedPulse_of_ge {p : Int} (high : 20000 ≤ p) : clampedPulse p = 20000 := by
  have cases := clampedPulse_cases p
  omega

theorem clampedPulse_of_mem {p : Int} (low : 0 ≤ p) (high : p ≤ 20000) : clampedPulse p = p.toNat := by
  have cases := clampedPulse_cases p
  omega

theorem levelOf_le : levelOf p n ≤ n :=
  Nat.div_le_of_le_mul (Nat.mul_le_mul_right n (clampedPulse_le p))

theorem levelOf_mono {p p' : Int} (le : p ≤ p') : levelOf p n ≤ levelOf p' n :=
  Nat.div_le_div_right (Nat.mul_le_mul_right n (clampedPulse_mono le))

/-- The product of R175 fits 31 bits (R176). -/
theorem clampedPulse_mul_lt {n : Nat} (fits : n ≤ 65536) : clampedPulse p * n < 2 ^ 31 :=
  calc clampedPulse p * n
    _ ≤ 20000 * 65536 := Nat.mul_le_mul (clampedPulse_le p) fits
    _ < 2 ^ 31 := by decide

/-- Settles O43: the three cases of the clamp, under the quotient of R175. -/
theorem levelIsClampedAndMonotone : Obligations.LevelIsClampedAndMonotone := by
  intro p p' n
  refine ⟨levelOf_le p n, levelOf_mono n, fun low => ?_, fun high => ?_, clampedPulse_mul_lt p, fun low high => ?_⟩
  · rw [levelOf_eq, clampedPulse_of_nonpos low, Nat.zero_mul, Nat.zero_div]
  · rw [levelOf_eq, clampedPulse_of_ge high, Nat.mul_div_cancel_left n (by decide)]
  · rw [levelOf_eq, clampedPulse_of_mem low high]

end Level

/-! ### The host's quotients against the exact rationals (R171, R175, R178, R179) -/

/-- The divider's range among the constraints of R8. -/
theorem divider_bounds {P : Params} (wf : P.wf = true) : 16 ≤ P.pwmDiv16 ∧ P.pwmDiv16 ≤ 4095 := by
  simp only [Params.wf, Bool.and_eq_true, decide_eq_true_eq] at wf
  obtain ⟨⟨-, low⟩, high⟩ := wf
  exact ⟨low, high⟩

section Rounding
variable (P : Params)

/-- A quotient of naturals is short of the rational quotient by less than 1. -/
theorem div_lt_natDiv_add_one (a b : Nat) : (a : Rat) / b < (a / b : Nat) + 1 := by
  rw [← Nat.floor_div_eq_div (K := Rat) a b]
  exact Nat.lt_floor_add_one _

/-- The exact number of counter ticks in 20 ms, which `period_counts` rounds down (R171). -/
def exactCounts : Rat := 16 * P.fSys / (50 * P.pwmDiv16)

theorem exactCounts_eq : exactCounts P = ((16 * P.fSys : Nat) : Rat) / ((50 * P.pwmDiv16 : Nat) : Rat) := by
  simp [exactCounts]

theorem periodCountsOf_le : (periodCountsOf P : Rat) ≤ exactCounts P := by
  rw [exactCounts_eq]
  exact Nat.cast_div_le

theorem exactCounts_lt : exactCounts P < periodCountsOf P + 1 := by
  rw [exactCounts_eq]
  exact div_lt_natDiv_add_one _ _

theorem exactCounts_of_dvd (dvd : 50 * P.pwmDiv16 ∣ 16 * P.fSys) : exactCounts P = periodCountsOf P := by
  rw [exactCounts_eq]
  exact (Nat.cast_div_charZero dvd).symm

theorem levelOf_le_exact (p : Int) (n : Nat) : (levelOf p n : Rat) ≤ clampedPulse p * n / 20000 := by
  exact_mod_cast Nat.cast_div_le (α := Rat) (m := clampedPulse p * n) (n := 20000)

theorem exact_lt_levelOf (p : Int) (n : Nat) : (clampedPulse p * n / 20000 : Rat) < levelOf p n + 1 := by
  exact_mod_cast div_lt_natDiv_add_one (clampedPulse p * n) 20000

/-- Settles O44: the level rounds `q * period_counts / 20000` down by less than 1, and `period_counts` rounds the exact
count down by less than 1, which the factor `q / 20000` scales. -/
theorem pulseShortfallIsBounded : Obligations.PulseShortfallIsBounded := by
  intro P p _ q x e
  have q_nonneg : 0 ≤ q := Nat.cast_nonneg _
  have level_le : levelOf p (periodCountsOf P) ≤ q * periodCountsOf P / 20000 := levelOf_le_exact p _
  have lt_level : q * periodCountsOf P / 20000 < levelOf p (periodCountsOf P) + 1 := exact_lt_levelOf p _
  have counts_le : q * periodCountsOf P ≤ q * x := mul_le_mul_of_nonneg_left (periodCountsOf_le P) q_nonneg
  have le_counts : q * x ≤ q * (periodCountsOf P + 1) := mul_le_mul_of_nonneg_left (exactCounts_lt P).le q_nonneg
  refine ⟨sub_nonneg.mpr ?_, sub_lt_iff_lt_add.mpr ?_, fun dvd => sub_lt_iff_lt_add'.mpr ?_⟩
  · linarith
  · linarith
  · have same : x = periodCountsOf P := exactCounts_of_dvd P dvd
    rwa [same]

/-- With an integer divider `D` the exact count is 20 ms of `clk_sys` in ticks of `D` cycles (R178). -/
theorem exactCounts_mul_divider {D : Nat} (positive : 0 < D) (integer : P.pwmDiv16 = 16 * D) :
    exactCounts P * D = P.fSys / 50 := by
  have nonzero : (D : Rat) ≠ 0 := Nat.cast_ne_zero.mpr positive.ne'
  rw [exactCounts, integer]
  push_cast
  field_simp

/-- Settles O45: the rounding of `period_counts`, scaled by the divider. -/
theorem periodIsShortByLessThanATick : Obligations.PeriodIsShortByLessThanATick := by
  intro P D wf integer
  obtain ⟨divLow, -⟩ := divider_bounds wf
  have positive : 0 < D := by omega
  have positiveRat : (0 : Rat) < D := Nat.cast_pos.mpr positive
  rw [← exactCounts_mul_divider P positive integer]
  have counts_le := mul_le_mul_of_nonneg_right (periodCountsOf_le P) positiveRat.le
  have lt_counts := mul_lt_mul_of_pos_right (exactCounts_lt P) positiveRat
  constructor <;> linarith

end Rounding

/-! ### The checks of `configure` (R170, R172, R180) -/

/-- Settles O47: in each outcome of `configureOp_cases` the other clauses' conditions contradict the outcome's own. -/
theorem configureChecksInOrder : Obligations.ConfigureChecksInOrder := by
  intro P pin f h
  rcases configureOp_cases P pin f h with ⟨stored, begun⟩ | ⟨unset, other, begun⟩ | ⟨unset, freq, foreign, begun⟩ |
    ⟨unset, freq, capable, outside, begun⟩ | ⟨unset, freq, capable, low, high, -⟩
  · have stored : h.cfg ≠ none := Option.isSome_iff_ne_none.mp stored
    exact ⟨fun _ => begun, (absurd · stored), (absurd · stored), (absurd · stored)⟩
  · exact ⟨absurd unset, fun _ _ => begun, fun _ freq => absurd freq other, fun _ freq => absurd freq other⟩
  · exact ⟨absurd unset, fun _ other => absurd freq other, fun _ _ _ => begun,
      fun _ _ capable => absurd capable foreign⟩
  · exact ⟨absurd unset, fun _ other => absurd freq other, fun _ _ foreign => absurd capable foreign,
      fun _ _ _ _ => begun⟩
  · exact ⟨absurd unset, fun _ other => absurd freq other, fun _ _ foreign => absurd capable foreign,
      fun _ _ _ outside => by omega⟩

/-- Past the other checks `configure` goes on exactly where the wrap fits its register (R172). -/
theorem configureOp_start_iff {P : Params} {pin : Nat} {h : HostState} (unset : h.cfg = none)
    (capable : pin ∈ P.pwmPins) :
    configureOp P pin 50 h = .start (.txns (configureTxns P pin)) ↔ 0 ≤ wrapOf P ∧ wrapOf P ≤ 65535 := by
  rcases configureOp_cases P pin 50 h with ⟨stored, -⟩ | ⟨-, other, -⟩ | ⟨-, -, foreign, -⟩ |
    ⟨-, -, -, outside, begun⟩ | ⟨-, -, -, low, high, begun⟩
  · simp [unset] at stored
  · exact absurd rfl other
  · exact absurd capable foreign
  · rw [begun]
    exact iff_of_false (by simp) (by omega)
  · exact iff_of_true begun ⟨low, high⟩

/-- The clocks whose wrap fits, with the divider 64: `period_counts = F_SYS div 3200` is in 1..65536 (R171, R172). -/
theorem wrapOf_fits_iff {P : Params} (div : P.pwmDiv16 = 1024) :
    (0 ≤ wrapOf P ∧ wrapOf P ≤ 65535) ↔ 3200 ≤ P.fSys ∧ P.fSys ≤ 209718399 := by
  rw [wrapOf, periodCountsOf, div, Config.pwmFreq]
  omega

/-- Settles O46: `configure` goes on exactly where the wrap fits, and that is the clock's range. -/
theorem configureSucceedsExactlyInRange : Obligations.ConfigureSucceedsExactlyInRange := by
  intro P pin h div unset capable
  rw [configureOp_start_iff unset capable, wrapOf_fits_iff div]

/-! ### What the Back-End's words leave in the block (R173, R174) -/

section Words
variable {n : Nat} (s : State)

/-- `WR.PWM_CC` with a level that fits the field (R110). -/
theorem present_write_level (fits : n < 2 ^ 17) :
    ∃ t, present (memWrite .pwmCc n) s = .next t ∧ t.hw.cc.toNat = n ∧ t.host = s.host := by
  refine ⟨_, (present_memWrite .pwmCc n s).trans (exec_wrPwmCc _ s), ?_, rfl⟩
  rw [State.writeCycle_hw, clk_cc, Option.getD_some, fieldLevel_toNat, BitVec.toNat_ofNat]
  omega

/-- `WR.PWM_CSR` with 1 enables the slice and keeps its configuration (R104). -/
theorem present_enable_slice :
    ∃ t, present (memWrite .pwmCsr 1) s = .next t ∧ t.hw.pwmEn = true ∧ t.hw.div16 = s.hw.div16 ∧
      t.hw.top = s.hw.top ∧ t.hw.cc = s.hw.cc :=
  ⟨_, (present_memWrite .pwmCsr 1 s).trans (exec_wrPwmCsr _ s), rfl, rfl, rfl, rfl⟩

variable {s} (disabled : s.hw.pwmEn = false)
include disabled

/-- `WR.PWM_DIV` with an admissible divider on a disabled slice (R106). -/
theorem present_write_divider (low : 16 ≤ n) (high : n ≤ 4095) :
    ∃ t, present (memWrite .pwmDiv n) s = .next t ∧ t.hw.div16 = n ∧ t.hw.pwmEn = false ∧ t.hw.cc = s.hw.cc := by
  have number : (BitVec.ofNat 32 n).toNat = n := (BitVec.toNat_ofNat n 32).trans (Nat.mod_eq_of_lt (by omega))
  refine ⟨_, (present_memWrite .pwmDiv n s).trans (exec_wrPwmDiv_accepted disabled (by omega)), ?_, disabled, rfl⟩
  simp only [Pwmt.div16, State.writeCycle_hw, clk_divInt, clk_divFrac, Option.getD_some, fieldInt_toNat,
    fieldFrac_toNat, number]
  omega

/-- `WR.PWM_TOP` with a wrap that fits on a disabled slice (R112). -/
theorem present_write_wrap (fits : n < 2 ^ 16) :
    ∃ t, present (memWrite .pwmTop n) s = .next t ∧ t.hw.top.toNat = n ∧ t.hw.pwmEn = false ∧
      t.hw.div16 = s.hw.div16 ∧ t.hw.cc = s.hw.cc := by
  refine ⟨_, (present_memWrite .pwmTop n s).trans (exec_wrPwmTop_accepted disabled), ?_, disabled, rfl, rfl⟩
  rw [State.writeCycle_hw, clk_top, Option.getD_some, fieldWrap_toNat, BitVec.toNat_ofNat]
  omega

end Words

/-- Settles O48: the three writes one after the other, each with what it keeps of those before it. -/
theorem configureWritesDividerTopEnable : Obligations.ConfigureWritesDividerTopEnable := by
  intro P pin s wf low high disabled
  obtain ⟨divLow, divHigh⟩ := divider_bounds wf
  refine ⟨rfl, fun _ _ _ => rfl, ?_⟩
  obtain ⟨s1, written1, div1, disabled1, cc1⟩ := present_write_divider disabled divLow divHigh
  obtain ⟨s2, written2, top2, -, div2, cc2⟩ := present_write_wrap (n := (wrapOf P).toNat) disabled1 (by omega)
  obtain ⟨s3, written3, enabled3, div3, top3, cc3⟩ := present_enable_slice s2
  refine ⟨_, _, _, s1, s2, s3, rfl, written1, written2, written3, ?_, ?_, enabled3, ?_⟩
  · rw [div3, div2, div1]
  · rw [top3, top2, Int.toNat_of_nonneg low]
  · rw [cc3, cc2, cc1]

/-- Settles O49: the level is at most `period_counts`, which fits the field where the configuration is sound. -/
theorem setPulseWritesItsLevel : Obligations.SetPulseWritesItsLevel := by
  refine ⟨fun p h => ⟨fun c stored => ?_, fun unset => ?_⟩, fun c p s sound => ?_⟩
  · simp only [setPulseOp, stored]
  · simp only [setPulseOp, unset]
  · obtain ⟨-, -, -, counts⟩ := sound
    have level := levelOf_le p c.periodCounts
    exact present_write_level s (by omega)

end Sys2Proof.Machine

/-! PROOFS. The Sweep Controller: what one tick does to Servo State in each direction, the run of ticks between the two
endpoints, and the closed form of the whole sweep (44_sweep_controller.md R190 to R197). -/

namespace Sys2Proof.Machine

/-! ### One tick (R192, R193) -/

section Tick
variable {p : Int}

theorem Servo.tick_up_reverses (reached : 2400 ≤ p + 5) :
    Servo.tick { targetPulse := p, direction := .up } = { targetPulse := 2400, direction := .down } :=
  if_pos reached

theorem Servo.tick_up_advances (below : p + 5 < 2400) :
    Servo.tick { targetPulse := p, direction := .up } = { targetPulse := p + 5, direction := .up } :=
  if_neg (Int.not_le.mpr below)

theorem Servo.tick_down_reverses (reached : p - 5 ≤ 500) :
    Servo.tick { targetPulse := p, direction := .down } = { targetPulse := 500, direction := .up } :=
  if_pos reached

theorem Servo.tick_down_advances (above : 500 < p - 5) :
    Servo.tick { targetPulse := p, direction := .down } = { targetPulse := p - 5, direction := .down } :=
  if_neg (Int.not_le.mpr above)

end Tick

/-- Settles O50: the two branches of a tick in each direction. -/
theorem sweepTickSaturatesAndReverses : Obligations.SweepTickSaturatesAndReverses := fun _ =>
  ⟨Servo.tick_up_reverses, Servo.tick_up_advances, Servo.tick_down_reverses, Servo.tick_down_advances⟩

/-! ### The ticks between the endpoints -/

/-- Going up, `n` ticks that stay below `PULSE_MAX` add `n` steps. -/
theorem Servo.iterate_tick_up {p : Int} {n : Nat} (below : p + 5 * (n : Int) < 2400) :
    Servo.tick^[n] { targetPulse := p, direction := .up } = { targetPulse := p + 5 * (n : Int), direction := .up } := by
  induction n with
  | zero => simp
  | succ n ih =>
    have oneMore : p + 5 * (n : Int) + 5 = p + 5 * ((n + 1 : Nat) : Int) := by omega
    rw [Function.iterate_succ_apply', ih (by omega), Servo.tick_up_advances (oneMore ▸ below), oneMore]

/-- Going down, `n` ticks that stay above `PULSE_MIN` take `n` steps off. -/
theorem Servo.iterate_tick_down {p : Int} {n : Nat} (above : 500 < p - 5 * (n : Int)) :
    Servo.tick^[n] { targetPulse := p, direction := .down } =
      { targetPulse := p - 5 * (n : Int), direction := .down } := by
  induction n with
  | zero => simp
  | succ n ih =>
    have oneMore : p - 5 * (n : Int) - 5 = p - 5 * ((n + 1 : Nat) : Int) := by omega
    rw [Function.iterate_succ_apply', ih (by omega), Servo.tick_down_advances (oneMore ▸ above), oneMore]

/-! ### The period of the sweep (R196) -/

theorem Servo.initial_eq : Servo.initial = { targetPulse := 500, direction := .up } := rfl

/-- 379 ticks reach 2395, and the next one lands on `PULSE_MAX` and reverses. -/
theorem Servo.half_sweep_up : Servo.tick^[380] Servo.initial = { targetPulse := 2400, direction := .down } := by
  have climb : Servo.tick^[379] { targetPulse := 500, direction := .up } =
      { targetPulse := 2395, direction := .up } := Servo.iterate_tick_up (by omega)
  rw [Servo.initial_eq, Function.iterate_succ_apply', climb, Servo.tick_up_reverses (by omega)]

/-- 379 ticks reach 505, and the next one lands on `PULSE_MIN` and reverses. -/
theorem Servo.half_sweep_down :
    Servo.tick^[380] { targetPulse := 2400, direction := .down } = Servo.initial := by
  have fall : Servo.tick^[379] { targetPulse := 2400, direction := .down } =
      { targetPulse := 505, direction := .down } := Servo.iterate_tick_down (by omega)
  rw [Function.iterate_succ_apply', fall, Servo.tick_down_reverses (by omega), Servo.initial_eq]

theorem Servo.initial_isPeriodicPt : Function.IsPeriodicPt Servo.tick 760 Servo.initial := by
  change Servo.tick^[380 + 380] Servo.initial = Servo.initial
  rw [Function.iterate_add_apply, Servo.half_sweep_up, Servo.half_sweep_down]

/-- Settles O51: `n mod 760` ticks do what `n` do; below 380 they climb, and from 380 on they fall from `PULSE_MAX`. -/
theorem sweepClosedForm : Obligations.SweepClosedForm := by
  intro n
  have inPeriod : n % 760 < 760 := Nat.mod_lt n (by omega)
  rw [← Servo.initial_isPeriodicPt.iterate_mod_apply n]
  generalize n % 760 = m at inPeriod ⊢
  split
  · next climbing =>
    rw [Servo.initial_eq]
    exact Servo.iterate_tick_up (by omega)
  · next falling =>
    have halves : m = (m - 380) + 380 := by omega
    calc Servo.tick^[m] Servo.initial
      _ = Servo.tick^[m - 380] (Servo.tick^[380] Servo.initial) := by rw [← Function.iterate_add_apply, ← halves]
      _ = _ := by rw [Servo.half_sweep_up, Servo.iterate_tick_down (by omega)]

end Sys2Proof.Machine

/-! PROOFS. What the host does in one cycle: which context moves, what that move touches, what follows a transaction, and
what the end of the cycle leaves (00_scope.md R5; 45_tick_scheduler.md R208, R209; 70_reset_and_hazards.md R234, R236). -/

namespace Sys2Proof.Machine

open Config (Params)

/-! ### Which context moves -/

section Move
variable (P : Params) {s : State}

/-- A host that an error has stopped does nothing (R232). -/
theorem hostMove_of_halted (halted : s.host.halted = true) : hostMove P s = .idle s := by simp [hostMove, halted]

/-- In a live host's cycle with a handler in service only the handler moves (R208, R209). -/
theorem hostMove_of_inService (live : s.host.halted = false) (service : s.host.inService = true) :
    hostMove P s = isrMove P s := by
  simp [hostMove, live, service]

/-- A request is looked at where no handler is in service (R208). -/
theorem hostMove_of_request (live : s.host.halted = false) (out : s.host.inService = false) (irq : s.hw.irq = true) :
    hostMove P s = requestMove P s := by
  simp [hostMove, live, out, irq]

/-- A request whose latency has passed starts the handler; a latency drawn before takes no draw (R208, R234). -/
theorem requestMove_of_due (due : s.host.irqGap = some 0) : requestMove P s = startIsr P s := by
  simp [requestMove, due, drawsAfter]

/-- Without a request and without a handler main moves, and a drawn latency is forgotten (R231 g; log 17). -/
theorem hostMove_of_no_request (live : s.host.halted = false) (out : s.host.inService = false)
    (quiet : s.hw.irq = false) :
    hostMove P s = mainMove P (mainFuel P) { s with host := { s.host with irqGap := none } } := by
  simp [hostMove, live, out, quiet]

/-- Everything a request can lead to: the handler starts, or main runs in a cycle of the latency (R208; log 17). -/
theorem requestMove_cases (s : State) : ∃ draws,
    requestMove P s = startIsr P { s with draws := draws } ∧ s.host.irqGap.getD (P.lIrq s.draws) = 0 ∨
    ∃ gap, s.host.irqGap.getD (P.lIrq s.draws) = gap + 1 ∧ requestMove P s =
      mainMove P (mainFuel P) { s with host := { s.host with irqGap := some gap }, draws := draws } := by
  unfold requestMove
  dsimp only
  split
  · next due => exact ⟨_, .inl ⟨rfl, due⟩⟩
  · next waits =>
    obtain ⟨gap, drawn⟩ := Nat.exists_eq_succ_of_ne_zero waits
    exact ⟨_, .inr ⟨gap, drawn, by rw [drawn]; rfl⟩⟩

/-- The start of the handler has no meaning without a callback and a Servo State (V12). -/
theorem startIsr_refuse_or_set (s : State) :
    (∃ r, startIsr P s = .refuse r) ∨ s.host.handler.isSome = true ∧ s.host.servo.isSome = true := by
  unfold startIsr
  split
  · exact .inl ⟨_, rfl⟩
  · exact .inl ⟨_, rfl⟩
  · next registered set => exact .inr ⟨by simp [registered], by simp [set]⟩

/-- The start of the handler with a callback registered and Servo State set (R208, R234). -/
theorem startIsr_of_set {cb : Callback} {sv : Servo} (registered : s.host.handler = some cb)
    (set : s.host.servo = some sv) :
    startIsr P s = .present { word := memWrite .tmrIntr 1, after := .runCallback }
      { s with host := s.host.enterIsr (P.tCb s.draws), draws := s.draws + 1 } := by
  simp only [startIsr, registered, set]

/-- Everything a cycle with a handler in service can begin with: only the handler's queue and gap move (R209). -/
theorem hostMove_inService_cases (service : s.host.inService = true) :
    (∃ gap draws, hostMove P s = .idle { s with host := { s.host with isrGap := gap }, draws := draws }) ∨
    ∃ x queue draws, s.host.halted = false ∧ s.host.isrQueue = x :: queue ∧
      hostMove P s = .present x { s with
        host := { s.host with isrQueue := queue, isrGap := none }, draws := draws } := by
  cases halted : s.host.halted with
  | true => exact .inl ⟨s.host.isrGap, s.draws, hostMove_of_halted P halted⟩
  | false =>
    rw [hostMove_of_inService P halted service, isrMove]
    split
    · exact .inl ⟨s.host.isrGap, s.draws, rfl⟩
    · next x queue queued =>
      dsimp only
      split
      · exact .inr ⟨x, queue, _, rfl, queued, rfl⟩
      · exact .inl ⟨_, _, rfl⟩

/-- A handler with nothing left to present (R208). -/
theorem isrMove_of_nil (nothing : s.host.isrQueue = []) : isrMove P s = .idle s := by simp only [isrMove, nothing]

/-- The handler's next transaction, when its gap has passed (R208). -/
theorem isrMove_of_due {x : PendingTxn} {queue : List PendingTxn} (queued : s.host.isrQueue = x :: queue)
    (due : s.host.isrGap = some 0) :
    isrMove P s = .present x { s with host := { s.host with isrQueue := queue, isrGap := none } } := by
  simp [isrMove, queued, due, drawsAfter]

/-- Main inside a wait presents nothing (R212). -/
theorem mainMove_of_waiting {fuel n : Nat} (wait : s.host.phase = .waiting (n + 1)) :
    mainMove P (fuel + 1) s = .idle s := by
  simp only [mainMove, wait]

end Move

/-! ### What a cycle leaves alone -/

/-- Beginning an operation that is complete at once gives Servo State a value at most (R191, R263). -/
theorem beginOp_done {P : Params} {op : HostOp} {h g : HostState} (begun : beginOp P op h = .done g) :
    ∃ sv, g = { h with servo := sv } := by
  cases op with
  | stdioInit => cases begun; exact ⟨_, rfl⟩
  | initServo => cases begun; exact ⟨_, rfl⟩
  | configure pin f =>
    rcases configureOp_cases P pin f h with ⟨-, answer⟩ | ⟨-, -, answer⟩ | ⟨-, -, -, answer⟩ |
      ⟨-, -, -, -, answer⟩ | ⟨-, -, -, -, -, answer⟩ <;>
        exact Begun.noConfusion (answer.symm.trans begun)
  | setPulse p =>
    simp only [beginOp, setPulseOp] at begun
    split at begun <;> cases begun
  | wait ms => cases begun
  | arm ms cb => cases begun
  | idleLoop ms => cases begun

/-- No handler is in service, and this much of a request's latency has been drawn. -/
abbrev HostState.OutOfService (gap : Option Nat) (h : HostState) : Prop := h.inService = false ∧ h.irqGap = gap

/-- The host that a move leaves is out of service, with this much latency drawn. -/
def HostMove.OutOfService (gap : Option Nat) : HostMove → Prop
  | .idle s => s.host.OutOfService gap
  | .present _ s => s.host.OutOfService gap
  | .refuse _ => True

/-- Main starts no handler and leaves the latency alone, whatever it passes in the cycle (R208; log 8). -/
theorem mainMove_outOfService (P : Params) (fuel : Nat) {s : State} {gap : Option Nat}
    (out : s.host.OutOfService gap) : (mainMove P fuel s).OutOfService gap := by
  have complete : ∀ h : HostState, h.OutOfService gap → (completeOp P h).OutOfService gap :=
    fun h => by simp [HostState.OutOfService]
  induction fuel generalizing s with
  | zero => exact out
  | succ n ih =>
    unfold mainMove
    split
    · unfold mainTxn
      dsimp only
      split <;> exact out
    · exact ih (complete _ out)
    · exact ih (complete _ out)
    · exact out
    · split
      · exact out
      · split
        · trivial
        · exact out
        · exact ih out
        · next h done =>
          obtain ⟨sv, rfl⟩ := beginOp_done done
          exact ih (complete _ out)

/-- A cycle with no handler in service leaves it so, unless it begins with everything that the start of a handler takes
(R208, V12). -/
theorem hostMove_outOfService_or_request (P : Params) {s : State} (out : s.host.inService = false) :
    (∃ gap, (hostMove P s).OutOfService gap) ∨
      s.hw.irq = true ∧ s.host.halted = false ∧ s.host.handler.isSome = true ∧ s.host.servo.isSome = true := by
  cases halted : s.host.halted with
  | true => rw [hostMove_of_halted P halted]; exact .inl ⟨s.host.irqGap, out, rfl⟩
  | false =>
    cases irq : s.hw.irq with
    | false =>
      rw [hostMove_of_no_request P halted out irq]
      exact .inl ⟨none, mainMove_outOfService P _ ⟨out, rfl⟩⟩
    | true =>
      rw [hostMove_of_request P halted out irq]
      obtain ⟨draws, ⟨due, -⟩ | ⟨gap, -, waits⟩⟩ := requestMove_cases P s
      · rcases startIsr_refuse_or_set P { s with draws := draws } with ⟨r, refused⟩ | ⟨registered, set⟩
        · rw [due, refused]; exact .inl ⟨none, trivial⟩
        · exact .inr ⟨rfl, rfl, registered, set⟩
      · rw [waits]; exact .inl ⟨some gap, mainMove_outOfService P _ ⟨out, rfl⟩⟩

section Callback
variable {P : Params} {h g : HostState}

/-- A host function that goes on touches the callback, Servo State and the handler's queue only (R42, R205). -/
theorem runHostFn_ok {id memory : Nat} {resp : Option Response} (ran : runHostFn P id memory resp h = .ok g) :
    ∃ cb sv q, g = { h with handler := cb, servo := sv, isrQueue := q } := by
  rcases runHostFn_cases P id memory resp h with ⟨-, refused⟩ | ⟨sv, -, moves⟩
  · cases refused.symm.trans ran
  · rcases doMove_cases id (P.hostFn id (h.callbackView sv memory resp)) h with ⟨r, refused⟩ | ⟨sv', q, moved, -, -⟩
    · cases (moves.trans refused).symm.trans ran
    · cases (moves.trans moved).symm.trans ran
      exact ⟨_, _, _, rfl⟩

/-- The callback that begins touches the same records (R208). -/
theorem isrBody_ok (ran : isrBody P h = .ok g) :
    ∃ cb sv q, g = { h with handler := cb, servo := sv, isrQueue := q } := by
  unfold isrBody at ran
  split at ran
  · cases ran
  · rcases tickOp_cases h with ⟨-, r, refused⟩ | ⟨sv, c, -, -, ticked⟩
    · rw [refused] at ran; cases ran
    · rw [ticked] at ran; cases ran; exact ⟨_, _, _, rfl⟩
  · exact runHostFn_ok ran

/-- The callback that goes on touches the same records (R205). -/
theorem resumeBody_ok {resp : Option Response} (ran : resumeBody P resp h = .ok g) :
    ∃ cb sv q, g = { h with handler := cb, servo := sv, isrQueue := q } := by
  unfold resumeBody at ran
  split at ran
  · cases ran
  · cases ran; exact ⟨_, _, _, rfl⟩
  · exact runHostFn_ok ran

end Callback

/-- What follows a transaction changes neither the service nor the latency nor main's place in its program; only `arm`
gives main a new phase, which a transaction of the handler never does (R205, R208). -/
theorem afterTxn_frame {P : Params} {a : AfterTxn} {resp : Option Response} {h g : HostState}
    (after : afterTxn P a resp h = .ok g) :
    g.inService = h.inService ∧ g.irqGap = h.irqGap ∧ g.hpc = h.hpc ∧ g.mainGap = h.mainGap ∧
      (a.isrOk → g.phase = h.phase) := by
  cases a with
  | nothing => cases after; simp
  | storeConfig c => cases after; simp
  | storeHandler cb => cases after; simp
  | forgetHandler => cases after; simp
  | armChecks ms cb =>
    rcases armChecks_cases P ms cb resp h with ⟨-, answer⟩ | ⟨-, -, answer⟩ | ⟨-, -, -, answer⟩ <;>
      cases answer.symm.trans after <;> exact ⟨rfl, rfl, rfl, rfl, False.elim⟩
  | runCallback =>
    obtain ⟨cb, sv, q, rfl⟩ := isrBody_ok after
    simp
  | resumeCallback =>
    obtain ⟨cb, sv, q, rfl⟩ := resumeBody_ok after
    simp

/-! ### The end of a cycle -/

section EndCycle
variable (P : Params) {h : HostState}

/-- The end of a cycle inside an operation of main: a wait counts down, and the handler's service goes on or ends. -/
theorem endCycle_of_open (live : h.halted = false) (opened : h.phase ≠ .txns []) :
    h.endCycle P = { h with phase := h.phase.pass }.passIsr := by
  simp [HostState.endCycle, live, opened]

/-- Main's place inside an operation survives the end of a cycle, but for the wait's countdown (R236; log 10). -/
theorem endCycle_main (opened : h.halted = false → h.phase ≠ .txns []) :
    (h.endCycle P).hpc = h.hpc ∧ (h.endCycle P).mainGap = h.mainGap ∧
      (h.endCycle P).phase.queue = h.phase.queue := by
  cases halted : h.halted with
  | true => rw [endCycle_halted P halted]; exact ⟨rfl, rfl, rfl⟩
  | false =>
    rw [endCycle_of_open P halted (opened halted)]
    rcases passIsr_cases { h with phase := h.phase.pass } with ⟨-, ends⟩ | ⟨-, -, -, ends⟩ | ⟨-, -, ends⟩ <;>
      rw [ends] <;> exact ⟨rfl, rfl, Phase.queue_pass _⟩

/-- A handler that has presented everything returns in the last cycle of its duration (R236; log 6). -/
theorem endCycle_returns (live : h.halted = false) (opened : h.phase ≠ .txns []) (nothing : h.isrQueue = [])
    (last : h.isrLeft ≤ 1) : (h.endCycle P).inService = false := by
  rw [endCycle_of_open P live opened]
  cases service : h.inService <;> simp [HostState.passIsr, nothing, last]

/-- Before its last cycle the handler stays in service, with one cycle less (R236; log 6). -/
theorem endCycle_lasts (live : h.halted = false) (opened : h.phase ≠ .txns []) (service : h.inService = true)
    (more : 1 < h.isrLeft) :
    (h.endCycle P).inService = true ∧ (h.endCycle P).isrQueue = h.isrQueue ∧
      (h.endCycle P).isrLeft = h.isrLeft - 1 := by
  rw [endCycle_of_open P live opened]
  simp [HostState.passIsr, service, show ¬ h.isrLeft ≤ 1 by omega]

/-- A handler with something left to present stays in service, however long it has lasted (R208). -/
theorem endCycle_presents (live : h.halted = false) (service : h.inService = true) (left : h.isrQueue ≠ []) :
    (h.endCycle P).inService = true ∧ (h.endCycle P).isrQueue = h.isrQueue := by
  rcases endCycle_isr P live with ⟨out, -⟩ | ⟨-, nothing, -⟩ | ⟨-, stays, queue, -⟩
  · simp [service] at out
  · exact absurd nothing left
  · exact ⟨stays, queue⟩

/-- The end of a cycle queues nothing for the handler. -/
theorem endCycle_isrQueue_nil (live : h.halted = false) (nothing : h.isrQueue = []) :
    (h.endCycle P).isrQueue = [] := by
  rcases endCycle_isr P live with ⟨-, -, queue⟩ | ⟨-, -, -, queue⟩ | ⟨-, -, queue, -⟩
  · rw [queue, nothing]
  · exact queue
  · rw [queue, nothing]

/-- The end of a cycle neither starts a handler nor touches the latency. -/
theorem endCycle_outOfService {gap : Option Nat} (out : h.OutOfService gap) : (h.endCycle P).OutOfService gap := by
  have pass : ∀ k : HostState, k.OutOfService gap → k.passIsr.OutOfService gap := by
    intro k quiet
    have ⟨service, _⟩ := quiet
    simpa [HostState.passIsr, service] using quiet
  unfold HostState.endCycle
  split
  · exact out
  · apply pass
    split
    · simpa [HostState.OutOfService] using out
    · exact out

end EndCycle

/-! ### The whole cycle -/

/-- A cycle of the host program without a transaction is the idle edge and the end of the host's cycle (R122). -/
theorem step_of_host_idle {s s' : State} (noInput : s.inputs = []) (move : hostMove Config.params s = .idle s') :
    Machine.step s = .next (hostIdleCycle Config.params s') := by
  rw [step_of_host noInput]
  simp only [hostCycle, move]

/-- A cycle in which main presents nothing inside an operation: the idle edge, and a wait that counts down (R122,
R212). -/
theorem step_of_main_idle {s s' : State} (noInput : s.inputs = []) (move : hostMove Config.params s = .idle s')
    (live : s'.host.halted = false) (out : s'.host.inService = false) (opened : s'.host.phase ≠ .txns []) :
    Machine.step s = .next { s' with
      hw := idleClk s'.hw, resp := none, host := { s'.host with phase := s'.host.phase.pass } } := by
  have ended : s'.host.endCycle Config.params = { s'.host with phase := s'.host.phase.pass } := by
    rw [endCycle_of_open _ live opened]
    simp [HostState.passIsr, out]
  rw [step_of_host_idle noInput move, hostIdleCycle, ended]
  rfl

/-- A cycle of the host program with a transaction that no error stops: the transaction's edge, what follows it, and the
end of the host's cycle (R5). -/
theorem step_of_host_completes {s s' u : State} {x : PendingTxn} {g : HostState} (noInput : s.inputs = [])
    (move : hostMove Config.params s = .present x s') (presented : present x.word s' = .next u)
    (live : u.host.halted = false) (after : afterTxn Config.params x.after u.resp u.host = .ok g) :
    Machine.step s = .next { u with host := g.endCycle Config.params } := by
  simp [step_of_host_present noInput move, presented, andFinish, finishTxn, live, after]

/-- Everything a cycle of the host program can leave of the host: an idle cycle ends; in a transaction's cycle a stopped
host stays as it is, or an error stops it, or what follows the transaction is done and the cycle ends (R5, R229). -/
theorem hostCycle_host {P : Params} {s t : State} (cycle : hostCycle P s = .next t) :
    (∃ s', hostMove P s = .idle s' ∧ t.host = s'.host.endCycle P) ∨
    ∃ x s', hostMove P s = .present x s' ∧
      (t.host = s'.host ∨ (∃ e, t.host = s'.host.raiseFatal e) ∨
        ∃ resp g, afterTxn P x.after resp s'.host = .ok g ∧ t.host = g.endCycle P) := by
  unfold hostCycle at cycle
  split at cycle
  · cases cycle
  · next s' move => cases cycle; exact .inl ⟨s', move, rfl⟩
  · next x s' move =>
    refine .inr ⟨x, s', move, ?_⟩
    obtain ⟨b, u, -, presented, -, -, -, host⟩ := present_inv x.word s'
    rw [presented] at cycle
    simp only [andFinish] at cycle
    rcases host with same | stopped
    · unfold finishTxn at cycle
      split at cycle
      · cases cycle; exact .inl same
      · split at cycle
        · cases cycle
        · next g after => cases cycle; exact .inr (.inr ⟨_, g, same ▸ after, rfl⟩)
    · rw [finishTxn_halted P x.after (by simp [stopped])] at cycle
      cases cycle
      exact .inr (.inl ⟨_, stopped⟩)

/-- A move that starts no handler leaves the host out of service at the end of its cycle, its latency as the move
left it. -/
theorem hostCycle_outOfService {P : Params} {s t : State} {gap : Option Nat}
    (move : (hostMove P s).OutOfService gap) (cycle : hostCycle P s = .next t) : t.host.OutOfService gap := by
  rcases hostCycle_host cycle with ⟨s', idle, ended⟩ | ⟨x, s', presents, left⟩
  · rw [idle] at move
    rw [ended]
    exact endCycle_outOfService P move
  · rw [presents] at move
    rcases left with same | ⟨e, stopped⟩ | ⟨resp, g, after, ended⟩
    · rw [same]; exact move
    · rw [stopped]; exact move
    · obtain ⟨service, latency, -⟩ := afterTxn_frame after
      rw [ended]
      exact endCycle_outOfService P ⟨service.trans move.1, latency.trans move.2⟩

end Sys2Proof.Machine

/-! PROOFS. The Tick Scheduler: `arm`, the start of a handler and its acknowledgement, main during a service, the
cancelled callback, and main's waits (45_tick_scheduler.md R205 to R213). -/

namespace Sys2Proof.Machine

open Config (Params)

/-! ### Main's waits (R212, R213) -/

/-- Settles O58: main moves, its wait presents nothing, and the end of the cycle counts it down. -/
theorem waitPresentsNothing : Obligations.WaitPresentsNothing := by
  intro s n noInput live out quiet wait
  have move := (hostMove_of_no_request Config.params live out quiet).trans (mainMove_of_waiting _ wait)
  rw [step_of_main_idle noInput move live out (by simp [wait])]
  simp only [wait]
  rfl

/-- Between two operations, or in a wait: main has nothing to present. -/
def Phase.Idling (p : Phase) : Prop := p = .ready ∨ ∃ n, p = .waiting n

theorem Phase.Idling.pass {p : Phase} (idling : p.Idling) : p.pass.Idling := by
  rcases idling with rfl | ⟨n, rfl⟩
  · exact .inl rfl
  · exact .inr ⟨n - 1, rfl⟩

theorem Phase.Idling.ne_txns {p : Phase} (idling : p.Idling) : p ≠ .txns [] := by
  rcases idling with rfl | ⟨n, rfl⟩ <;> simp

/-- Completing the idle loop begins it again (R124 a, R213). -/
theorem completeOp_idleLoop {P : Params} {h : HostState} {ms : Nat}
    (loop : P.program[h.hpc]? = some (.idleLoop ms)) : completeOp P h = { h with phase := .ready } := by
  simp only [completeOp, loop]

/-- In the idle loop main presents nothing however often the loop begins again in the cycle (R213; logs 8, 11). -/
theorem mainMove_idleLoop {P : Params} {ms : Nat} (fuel : Nat) {s : State}
    (loop : P.program[s.host.hpc]? = some (.idleLoop ms)) (idling : s.host.phase.Idling) :
    ∃ p, Phase.Idling p ∧ mainMove P fuel s = .idle { s with host := { s.host with phase := p } } := by
  induction fuel generalizing s with
  | zero => exact ⟨_, idling, rfl⟩
  | succ fuel ih =>
    rcases idling with ready | ⟨n, wait⟩
    · have begins : mainMove P (fuel + 1) s =
          mainMove P fuel { s with host := { s.host with phase := .waiting (cyclesOfMs P ms) } } := by
        simp only [mainMove, ready, loop, beginOp]
      rw [begins]
      exact ih loop (.inr ⟨_, rfl⟩)
    · cases n with
      | zero =>
        have beginsAgain : mainMove P (fuel + 1) s =
            mainMove P fuel { s with host := { s.host with phase := .ready } } := by
          simp only [mainMove, wait, completeOp_idleLoop loop]
        rw [beginsAgain]
        exact ih loop (.inl rfl)
      | succ n => exact ⟨_, .inr ⟨_, wait⟩, mainMove_of_waiting P wait⟩

/-- Settles O57: item 10 of the source's program is the idle loop. -/
theorem mainIsSilentAfterBoot : Obligations.MainIsSilentAfterBoot := by
  intro s noInput live out quiet item idling
  have loop : Config.params.program[s.host.hpc]? = some (.idleLoop Config.idleMs) := by rw [item]; rfl
  obtain ⟨p, idles, main⟩ := mainMove_idleLoop (mainFuel Config.params)
    (s := { s with host := { s.host with irqGap := none } }) loop idling
  have move := (hostMove_of_no_request Config.params live out quiet).trans main
  exact ⟨_, step_of_main_idle noInput move live out idles.ne_txns, rfl, rfl, item, idles.pass, rfl, rfl, rfl⟩

/-! ### `arm` (R205 to R207) -/

/-- Bit 0 of the read, as a number (R206). -/
theorem timerTaken_eq_decide (r : Response) : timerTaken (some r) = decide (r.rdata.toNat % 2 = 1) :=
  fieldEn_eq_decide r.rdata

section ArmWrites
variable {s : State}

/-- `WR.TMR_MATCH` with a value that fits, on a disabled timer (R118). -/
theorem present_write_match {n : Nat} (disabled : s.hw.tmrEn = false) (fits : n < 2 ^ 32) :
    ∃ t, present (memWrite .tmrMatch n) s = .next t ∧ t.hw.tmatch.toNat = n ∧ t.hw.tmrEn = false := by
  refine ⟨_, (present_memWrite .tmrMatch n s).trans (exec_wrTmrMatch_accepted disabled), ?_, disabled⟩
  rw [State.writeCycle_hw, clk_tmatch, Option.getD_some, BitVec.toNat_ofNat, Nat.mod_eq_of_lt fits]

/-- `WR.TMR_INTR` with 3 on a disabled timer leaves no flag: there is no match to race with (R120, R153). -/
theorem present_clear_flags (disabled : s.hw.tmrEn = false) :
    ∃ t, present (memWrite .tmrIntr 3) s = .next t ∧ t.hw.ip = false ∧ t.hw.ovr = false ∧
      t.hw.tmatch = s.hw.tmatch ∧ t.hw.tmrEn = false := by
  have noMatch : s.hw.matchNow = false := by simp [Pwmt.matchNow, disabled]
  have edge : clk s.hw { clrIp := true, clrOvr := true } = { idleClk s.hw with ip := false, ovr := false } := by
    rw [clk_clears]; simp [noMatch]
  refine ⟨_, (present_memWrite .tmrIntr 3 s).trans (exec_write_eq (exec_wrTmrIntr _ s) edge), rfl, rfl, rfl, disabled⟩

/-- `WR.TMR_CSR` with 3 on a disabled timer without a flag: it starts from 0 with its interrupt enabled (R114, R153). -/
theorem present_enable_timer (disabled : s.hw.tmrEn = false) (ip : s.hw.ip = false) (ovr : s.hw.ovr = false) :
    ∃ t, present (memWrite .tmrCsr 3) s = .next t ∧ t.hw.tmatch = s.hw.tmatch ∧ t.hw.tcnt = 0 ∧
      t.hw.ip = false ∧ t.hw.ovr = false ∧ t.hw.tmrEn = true ∧ t.hw.tmrIe = true := by
  refine ⟨_, (present_memWrite .tmrCsr 3 s).trans (exec_wrTmrCsr _ s), rfl, ?_, ?_, ?_, rfl, rfl⟩
  · rw [State.writeCycle_hw, clk_tcnt, tmrNext_disabled disabled]
  · rw [State.writeCycle_hw, clk_ip, tmrNext_disabled disabled, flagNext_quiet, ip]
  · rw [State.writeCycle_hw, clk_ovr, tmrNext_disabled disabled, flagNext_quiet, ovr]

end ArmWrites

/-- Settles O52: the two checks in their order, and the three writes one after the other, each with what it keeps of
those before it. -/
theorem armProgramsThePeriod : Obligations.ArmProgramsThePeriod := by
  intro P ms cb s r n
  have notTaken : r.rdata.toNat % 2 = 0 → ¬timerTaken (some r) = true := fun free => by
    simp [timerTaken_eq_decide, free]
  refine ⟨rfl, fun taken => ?_, fun free outside => ?_, fun free low high => ⟨?_, fun disabled => ?_⟩⟩
  · exact if_pos (by simp [timerTaken_eq_decide, taken])
  · exact (if_neg (notTaken free)).trans (if_pos outside)
  · exact (if_neg (notTaken free)).trans (if_neg (not_or.mpr ⟨Nat.not_lt.mpr low, Nat.not_lt.mpr high⟩))
  · obtain ⟨s1, written1, match1, disabled1⟩ := present_write_match (n := n - 1) disabled (by omega)
    obtain ⟨s2, written2, ip2, ovr2, match2, disabled2⟩ := present_clear_flags disabled1
    obtain ⟨s3, written3, match3, left⟩ := present_enable_timer disabled2 ip2 ovr2
    refine ⟨_, _, _, s1, s2, s3, rfl, written1, written2, written3, ?_, left⟩
    rw [match3, match2, match1, Nat.sub_add_cancel low]

/-! ### The start of a handler (R208, R234) -/

/-- Settles O53: a move that starts no handler leaves the host out of service; a waiting request lets main run, which
leaves the latency that the move has counted down. -/
theorem handlerStartsOnlyOnRequest : Obligations.HandlerStartsOnlyOnRequest := by
  refine ⟨fun s t noInput edge out service => ?_, fun s t n noInput live out irq drawn edge => ?_⟩
  · rw [step_of_host noInput] at edge
    rcases hostMove_outOfService_or_request Config.params out with ⟨gap, move⟩ | request
    · obtain ⟨stays, -⟩ := hostCycle_outOfService move edge
      simp [stays] at service
    · exact request
  · rw [step_of_host noInput] at edge
    have counted : (hostMove Config.params s).OutOfService (some n) := by
      rw [hostMove_of_request _ live out irq]
      obtain ⟨draws, ⟨-, due⟩ | ⟨gap, passing, waits⟩⟩ := requestMove_cases Config.params s
      · simp [drawn] at due
      · have gap_eq : gap = n := by simpa [drawn] using passing.symm
        rw [waits, gap_eq]
        exact mainMove_outOfService _ _ ⟨out, rfl⟩
    exact (hostCycle_outOfService counted edge).2

/-- `WR.TMR_INTR` with 1 takes the event: `IP` is left to a match of the same cycle (R120, R230). -/
theorem present_acknowledge (s : State) :
    ∃ t, present (memWrite .tmrIntr 1) s = .next t ∧ t.hw.ip = s.hw.matchNow ∧ t.hw.tmrIe = s.hw.tmrIe ∧
      t.host = s.host := by
  have edge : clk s.hw { clrIp := true, clrOvr := false } =
      { idleClk s.hw with ip := s.hw.matchNow, ovr := s.hw.ovr } := by
    rw [clk_clears]; simp
  exact ⟨_, (present_memWrite .tmrIntr 1 s).trans (exec_write_eq (exec_wrTmrIntr _ s) edge), rfl, rfl, rfl⟩

/-- `tick` as the callback of the handler: one sweep tick, and its level is queued (R190, R194, R208). -/
theorem isrBody_of_tick {P : Params} {h : HostState} {sv : Servo} {c : PwmConfig} (registered : h.handler = some .tick)
    (set : h.servo = some sv) (stored : h.cfg = some c) :
    isrBody P h = .ok { h with
      servo := some sv.tick, isrQueue := [plainTxn (setPulseWord c sv.tick.targetPulse)] } := by
  simp only [isrBody, registered, tickOp, set, stored]
  rfl

/-- Settles O55: the start of the handler presents the acknowledgement, and `tick` follows it in the same cycle. -/
theorem handlerAcknowledgesThenTicks : Obligations.HandlerAcknowledgesThenTicks := by
  intro s sv c noInput live out irq due registered set stored
  have move := ((hostMove_of_request Config.params live out irq).trans (requestMove_of_due _ due)).trans
    (startIsr_of_set _ registered set)
  obtain ⟨u, presented, ip, ie, host⟩ := present_acknowledge
    { s with host := s.host.enterIsr (Config.params.tCb s.draws), draws := s.draws + 1 }
  have after := isrBody_of_tick (P := Config.params) (h := u.host) (by rwa [host]) (by rwa [host]) (by rwa [host])
  have uLive : u.host.halted = false := by rw [host]; exact live
  have uService : u.host.inService = true := by rw [host]; rfl
  refine ⟨_, step_of_host_completes noInput move presented uLive after, ip, ie, ?servo, ?service⟩
  case servo =>
    obtain ⟨-, servo, -⟩ := endCycle_records Config.params _
    exact servo
  case service => exact endCycle_presents _ uLive uService (List.cons_ne_nil _ _)

/-! ### Main during a service (R208, R209, R236) -/

/-- The handler's moves and what follows its transactions leave main's place alone, and so does the end of the cycle,
since the invariant has no operation of main with an empty queue. -/
theorem hostCycle_main_of_inService {P : Params} {s t : State} (inv : s.host.Inv) (service : s.host.inService = true)
    (cycle : hostCycle P s = .next t) :
    t.host.hpc = s.host.hpc ∧ t.host.mainGap = s.host.mainGap ∧ t.host.phase.queue = s.host.phase.queue := by
  rcases hostMove_inService_cases P service with ⟨gap, draws, waits⟩ | ⟨x, queue, draws, live, queued, presents⟩
  · rcases hostCycle_host cycle with ⟨s', move, ended⟩ | ⟨x, s', move, -⟩
    · cases waits.symm.trans move
      rw [ended]
      exact endCycle_main P inv.main_open
    · cases waits.symm.trans move
  · rcases hostCycle_host cycle with ⟨s', move, -⟩ | ⟨x', s', move, left⟩
    · cases presents.symm.trans move
    · cases presents.symm.trans move
      rcases left with same | ⟨e, stopped⟩ | ⟨resp, g, after, ended⟩
      · rw [same]; exact ⟨rfl, rfl, rfl⟩
      · rw [stopped]; exact ⟨rfl, rfl, rfl⟩
      · obtain ⟨-, -, hpc, gap, kept⟩ := afterTxn_frame after
        have phase := kept (inv.isr_after x (by simp [queued]))
        have main := endCycle_main P (h := g) fun _ => by rw [phase]; exact inv.main_open live
        rw [hpc, gap, phase] at main
        rw [ended]
        exact main

/-- Settles O54: a cycle of the service leaves main's place alone; with nothing left to present it is an idle cycle,
whose end is the handler's return or one cycle less of its duration. -/
theorem mainIsFrozenDuringService : Obligations.MainIsFrozenDuringService := by
  refine ⟨fun s t inv noInput service edge => ?_, fun s inv noInput live service nothing => ?_⟩
  · rw [step_of_host noInput] at edge
    exact hostCycle_main_of_inService inv.host service edge
  · have opened := inv.host.main_open live
    have move := (hostMove_of_inService Config.params live service).trans (isrMove_of_nil _ nothing)
    obtain ⟨hpc, gap, queue⟩ := endCycle_main Config.params inv.host.main_open
    refine ⟨_, step_of_host_idle noInput move, rfl, hpc, gap, queue, endCycle_returns _ live opened nothing,
      fun more => ?_⟩
    obtain ⟨stays, kept, left⟩ := endCycle_lasts Config.params live opened service more
    exact ⟨stays, kept.trans nothing, left⟩

/-! ### A host function as callback (R205, R210) -/

section HostFunction
variable {P : Params} {h : HostState} {id memory : Nat} {resp : Option Response}
  (registered : h.handler = some (.hostFn id memory))
include registered

/-- A host function begins as it goes on, with no response to look at (R205). -/
theorem isrBody_of_hostFn : isrBody P h = runHostFn P id memory none h := by
  simp only [isrBody, registered]

theorem resumeBody_of_hostFn : resumeBody P resp h = runHostFn P id memory resp h := by
  simp only [resumeBody, registered]

end HostFunction

/-- A host function over a Servo State that is set makes its move (R42, R205). -/
theorem runHostFn_of_set {P : Params} {h : HostState} {id memory : Nat} {resp : Option Response} {sv : Servo}
    (set : h.servo = some sv) :
    runHostFn P id memory resp h = doMove id (P.hostFn id (h.callbackView sv memory resp)) h := by
  simp only [runHostFn, set]

/-- Over an unset Servo State it has no meaning (R42, V12). -/
theorem runHostFn_of_unset {P : Params} {h : HostState} {id memory : Nat} {resp : Option Response}
    (unset : h.servo = none) : runHostFn P id memory resp h = .refuse .servoUnset := by
  simp only [runHostFn, unset]

section Moves
variable {id : Nat} {m : CallbackMove} (h : HostState)

theorem doMove_of_access {w : BusWord} (access : m.act = .access w) :
    doMove id m h = .ok { h.recordMove id m with isrQueue := [callbackTxn w] } := by
  simp only [doMove, access]

theorem doMove_of_finish {cont : Bool} (finish : m.act = .finish cont) :
    doMove id m h = .ok { h.recordMove id m with isrQueue := cancelTxns cont } := by
  simp only [doMove, finish]

end Moves

/-- `WR.TMR_CSR` with 0 disables the timer and its interrupt, so that nothing is requested (R35, R114, R210). -/
theorem present_disable_timer (s : State) :
    ∃ t, present (memWrite .tmrCsr 0) s = .next t ∧ t.hw.tmrEn = false ∧ t.hw.tmrIe = false ∧ t.hw.irq = false ∧
      t.host = s.host :=
  ⟨_, (present_memWrite .tmrCsr 0 s).trans (exec_wrTmrCsr _ s), rfl, rfl, Bool.and_false _, rfl⟩

/-- Settles O56: a host function's move, case by case, and the cycle of the disable, at whose end the callback is
forgotten. -/
theorem cancelDisablesTheTimer : Obligations.CancelDisablesTheTimer := by
  refine ⟨fun P h id memory resp registered => ⟨fun unset => ?_, fun sv set => ?_⟩, ?_⟩
  · exact ⟨(isrBody_of_hostFn registered).trans (runHostFn_of_unset unset),
      (resumeBody_of_hostFn registered).trans (runHostFn_of_unset unset)⟩
  · have moves := (resumeBody_of_hostFn (P := P) (resp := resp) registered).trans (runHostFn_of_set set)
    refine ⟨fun noResponse => ?_, fun w access => moves.trans (doMove_of_access h access),
      fun finish => moves.trans (doMove_of_finish h finish), fun finish => moves.trans (doMove_of_finish h finish)⟩
    rw [isrBody_of_hostFn registered, resumeBody_of_hostFn registered, noResponse]
  · rintro s x rfl noInput live service queued due
    have move := (hostMove_of_inService Config.params live service).trans (isrMove_of_due _ queued due)
    obtain ⟨u, presented, en, ie, irq, host⟩ := present_disable_timer
      { s with host := { s.host with isrQueue := [], isrGap := none } }
    have uLive : u.host.halted = false := by rw [host]; exact live
    refine ⟨_, step_of_host_completes noInput move presented uLive rfl, en, ie, irq, ?_, ?_⟩
    · obtain ⟨-, -, handler, -⟩ := endCycle_records Config.params { u.host with handler := none }
      exact handler
    · exact endCycle_isrQueue_nil _ uLive (by rw [host])

end Sys2Proof.Machine

/-! PROOFS. A host that an error has stopped: it presents nothing while the block runs on, and its error stays recorded
until reset (60_exceptions.md R229, R232). -/

namespace Sys2Proof.Machine

open Config (Params)

/-- The error `e` is recorded, and the host is halted where `stopped` asks for it. Both survive whatever a cycle without
reset does to the host, so they are carried through it together (R229, R232). -/
abbrev HostState.Recorded (e : HostError) (stopped : Bool) (h : HostState) : Prop :=
  h.error = some e ∧ (stopped = true → h.halted = true)

/-- The host that a move leaves still has the error recorded. -/
def HostMove.Recorded (e : HostError) (stopped : Bool) : HostMove → Prop
  | .idle s => s.host.Recorded e stopped
  | .present _ s => s.host.Recorded e stopped
  | .refuse _ => True

section Recorded
variable {e : HostError} {stopped : Bool}

/-! ### The host's operations -/

/-- A later error halts the host again, and the first one stays (R229; log 3). -/
theorem HostState.Recorded.raiseFatal {h : HostState} (recorded : h.Recorded e stopped) (later : HostError) :
    (h.raiseFatal later).Recorded e stopped :=
  ⟨by simp [recorded.1], fun _ => rfl⟩

theorem HostState.Recorded.completeOp {h : HostState} (recorded : h.Recorded e stopped) (P : Params) :
    (completeOp P h).Recorded e stopped := by
  simpa [HostState.Recorded] using recorded

theorem HostState.Recorded.endCycle {h : HostState} (recorded : h.Recorded e stopped) (P : Params) :
    (h.endCycle P).Recorded e stopped := by
  obtain ⟨-, -, -, halted, error⟩ := endCycle_records P h
  rwa [HostState.Recorded, halted, error]

/-- What follows a transaction records at most a later error, where `arm` finds the timer taken (R206). -/
theorem HostState.Recorded.afterTxn {P : Params} {a : AfterTxn} {resp : Option Response} {h g : HostState}
    (recorded : h.Recorded e stopped) (after : afterTxn P a resp h = .ok g) : g.Recorded e stopped := by
  cases a with
  | nothing => cases after; exact recorded
  | storeConfig c => cases after; exact recorded
  | storeHandler cb => cases after; exact recorded
  | forgetHandler => cases after; exact recorded
  | armChecks ms cb =>
    rcases armChecks_cases P ms cb resp h with ⟨-, taken⟩ | ⟨-, -, refused⟩ | ⟨-, -, -, armed⟩
    · cases taken.symm.trans after; exact recorded.raiseFatal _
    · cases refused.symm.trans after
    · cases armed.symm.trans after; exact recorded
  | runCallback =>
    obtain ⟨cb, sv, q, rfl⟩ := isrBody_ok after
    exact recorded
  | resumeCallback =>
    obtain ⟨cb, sv, q, rfl⟩ := resumeBody_ok after
    exact recorded

/-! ### The host's move -/

section Move
variable (P : Params) {s : State}

/-- Main records at most a later error of the operation it begins, whatever it passes in the cycle (R170; log 8). -/
theorem mainMove_recorded (fuel : Nat) (recorded : s.host.Recorded e stopped) :
    (mainMove P fuel s).Recorded e stopped := by
  induction fuel generalizing s with
  | zero => exact recorded
  | succ n ih =>
    unfold mainMove
    split
    · unfold mainTxn
      dsimp only
      split <;> exact recorded
    · exact ih (recorded.completeOp P)
    · exact ih (recorded.completeOp P)
    · exact recorded
    · split
      · exact recorded
      · split
        · trivial
        · exact recorded.raiseFatal _
        · exact ih recorded
        · next h done =>
          obtain ⟨sv, rfl⟩ := beginOp_done done
          have begun : { s.host with servo := sv }.Recorded e stopped := recorded
          exact ih (begun.completeOp P)

theorem isrMove_recorded (recorded : s.host.Recorded e stopped) : (isrMove P s).Recorded e stopped := by
  unfold isrMove
  split
  · exact recorded
  · dsimp only
    split <;> exact recorded

theorem startIsr_recorded (recorded : s.host.Recorded e stopped) : (startIsr P s).Recorded e stopped := by
  unfold startIsr
  split
  · trivial
  · trivial
  · exact recorded

theorem hostMove_recorded (recorded : s.host.Recorded e stopped) : (hostMove P s).Recorded e stopped := by
  unfold hostMove
  split
  · exact recorded
  · split
    · exact isrMove_recorded P recorded
    · split
      · obtain ⟨draws, ⟨due, -⟩ | ⟨gap, -, waits⟩⟩ := requestMove_cases P s
        · rw [due]; exact startIsr_recorded P recorded
        · rw [waits]; exact mainMove_recorded P _ recorded
      · exact mainMove_recorded P _ recorded

end Move

/-! ### The cycle -/

/-- A cycle of the host program: the move, then what follows its transaction, then the end of the cycle (R5). -/
theorem hostCycle_recorded {P : Params} {s t : State} (recorded : s.host.Recorded e stopped)
    (cycle : hostCycle P s = .next t) : t.host.Recorded e stopped := by
  have moved := hostMove_recorded P recorded
  rcases hostCycle_host cycle with ⟨s', idle, ended⟩ | ⟨x, s', presents, left⟩
  · rw [idle] at moved
    rw [ended]
    exact HostState.Recorded.endCycle moved P
  · rw [presents] at moved
    rcases left with same | ⟨later, halts⟩ | ⟨resp, g, after, ended⟩
    · rw [same]; exact moved
    · rw [halts]; exact HostState.Recorded.raiseFatal moved later
    · rw [ended]; exact (HostState.Recorded.afterTxn moved after).endCycle P

/-- A cycle that the outside drives without reset: the host stands still, but for a `BusError` (R121; logs 2, 4). -/
theorem portCycle_recorded {p : PortInput} {s t : State} (recorded : s.host.Recorded e stopped) (noReset : p.rst = false)
    (cycle : portCycle p s = .next t) : t.host.Recorded e stopped := by
  simp only [portCycle, noReset, Bool.false_eq_true, if_false] at cycle
  split at cycle
  · next w _ =>
    obtain ⟨b, u, -, presented, -, -, -, host⟩ := present_inv w s
    cases presented.symm.trans cycle
    rcases host with same | halts
    · rw [same]; exact recorded
    · rw [halts]; exact recorded.raiseFatal _
  · cases cycle; exact recorded

theorem stepWith_recorded {P : Params} {s t : State} (recorded : s.host.Recorded e stopped)
    (noReset : s.resetNow = false) (edge : stepWith P s = .next t) : t.host.Recorded e stopped := by
  unfold stepWith at edge
  split at edge
  · next p rest ports =>
    have low : p.rst = false := by simpa only [State.resetNow, ports] using noReset
    exact portCycle_recorded (s := { s with inputs := rest }) recorded low edge
  · exact hostCycle_recorded recorded edge

end Recorded

/-! ### The statements -/

/-- Settles O11: the error, and the halt where it was set, go through the cycle together. -/
theorem recordedErrorIsNeverCleared : Obligations.RecordedErrorIsNeverCleared := by
  intro s t e noReset error edge
  exact stepWith_recorded (stopped := s.host.halted) ⟨error, id⟩ noReset edge

/-- Settles O10: a halted host's move is to present nothing, and the end of the cycle leaves it as it is. -/
theorem haltedHostLeavesHardwareRunning : Obligations.HaltedHostLeavesHardwareRunning := by
  intro s noInput halted
  calc Machine.step s
    _ = .next (hostIdleCycle Config.params s) := step_of_host_idle noInput (hostMove_of_halted _ halted)
    _ = .next s.idleCycle := by rw [hostIdleCycle, endCycle_halted _ halted]; rfl

end Sys2Proof.Machine

/-! PROOFS. The reset input, and the source's program: from every stage of it a cycle leads to a stage again, or the
host is stopped by `ConfigurationError` (70_reset_and_hazards.md R260 to R264; 60_exceptions.md R226, R233). -/

namespace Sys2Proof.Machine

open Config (Params)

/-! ### The reset input (R260) -/

/-- Settles O2: the outside drives a cycle whose `rst` is 1, whatever transaction it presents. -/
theorem resetInputResetsBlockAndHost : Obligations.ResetInputResetsBlockAndHost := by
  intro s reset
  cases ports : s.inputs with
  | nil => simp [State.resetNow, ports] at reset
  | cons p rest =>
    have high : p.rst = true := by simpa only [State.resetNow, ports] using reset
    have edge : Machine.step s = .next { s with inputs := rest }.systemReset := by
      simp only [Machine.step, stepWith, ports, portCycle, high, if_true]
    exact ⟨_, edge, rfl, rfl, rfl, rfl, rfl, rfl, rfl, rfl⟩

/-! ### What a move leads to -/

/-- The cycle that the host's move makes of its state (R5). -/
def HostMove.outcome (P : Params) : HostMove → StepOutcome
  | .idle s => .next (hostIdleCycle P s)
  | .present x s => andFinish P x.after (Machine.present x.word s)
  | .refuse r => .refused r

/-- A cycle of the host program is its move's. -/
theorem hostCycle_eq_outcome (P : Params) (s : State) : hostCycle P s = (hostMove P s).outcome P := by
  unfold hostCycle
  split <;> next move => rw [move]; rfl

/-- The move's cycle has a next state, and that state is as `Q` asks. -/
def HostMove.Leads (P : Params) (Q : State → Prop) (m : HostMove) : Prop := ∃ t, m.outcome P = .next t ∧ Q t

theorem HostMove.Leads.mono {P : Params} {Q R : State → Prop} {m : HostMove} (leads : m.Leads P Q)
    (weaker : ∀ t, Q t → R t) : m.Leads P R := by
  obtain ⟨t, next, holds⟩ := leads
  exact ⟨t, next, weaker t holds⟩

/-- Out of service the end of a cycle has no handler to pass. -/
theorem passIsr_of_out {h : HostState} (out : h.inService = false) : h.passIsr = h := if_neg (by simp [out])

/-- Between two transactions of its operation the end of a cycle leaves main as it is. -/
theorem endCycle_txns_cons (P : Params) {h : HostState} {x : PendingTxn} {queue : List PendingTxn}
    (live : h.halted = false) (out : h.inService = false) (left : h.phase = .txns (x :: queue)) : h.endCycle P = h := by
  have same : h.phase.pass = h.phase := by rw [left]; rfl
  rw [endCycle_of_open P live (by simp [left]), same]
  exact passIsr_of_out out

/-- After the last transaction of its operation the end of a cycle completes it. -/
theorem endCycle_txns_nil (P : Params) {h : HostState} (live : h.halted = false) (out : h.inService = false)
    (done : h.phase = .txns []) : h.endCycle P = completeOp P h := by
  simp only [HostState.endCycle, live, done, Bool.false_eq_true, if_false, if_true]
  exact passIsr_of_out ((completeOp_inService P h).trans out)

/-- An edge that does not write `TMR_EN` leaves an idle timer idle (R152, R153). -/
theorem clk_timerIdle {h : Pwmt} {w : BusWrite} (unwritten : w.tmrEn = none) (idle : h.TimerIdle) :
    (clk h w).TimerIdle := by
  obtain ⟨en, ip⟩ := idle
  refine ⟨by rw [clk_tmrEn, unwritten]; exact en, ?_⟩
  rw [clk_ip, tmrNext_disabled en, flagNext_eq, ip]
  rfl

/-- Everything the write of a register does to the state; only `WR.TMR_CSR` can start an idle timer (R101, R114). -/
theorem present_memWrite_cycle (g : Reg) (n : Nat) (s : State) : ∃ b,
    present (memWrite g n) s = .next (s.writeCycle b) ∧ (g ≠ .tmrCsr → s.hw.TimerIdle → (clk s.hw b).TimerIdle) := by
  obtain ⟨b, writes, owned⟩ := exec_write_owned g (BitVec.ofNat 32 n) s
  refine ⟨b, (present_memWrite g n s).trans writes, fun other => clk_timerIdle (owned.timer_enables ?_).1⟩
  rintro v same
  have register := congrArg Instr.reg same
  rw [reg_write_reg] at register
  exact other register

section Leads
variable {P : Params} {Q : State → Prop} {s : State}

/-- A transaction of a host that is not stopped, what follows it, and the end of the cycle (R5). -/
theorem present_leads {x : PendingTxn} {u : State} {k k' : HostState} (live : s.host.halted = false)
    (presented : present x.word s = .next u) (host : u.host = s.host)
    (after : afterTxn P x.after u.resp s.host = .ok k) (ended : k.endCycle P = k') (holds : Q { u with host := k' }) :
    (HostMove.present x s).Leads P Q :=
  ⟨_, by simp [HostMove.outcome, presented, andFinish, finishTxn, host, live, after, ended], holds⟩

section Write
variable {g : Reg} {n : Nat} {a : AfterTxn} {c : Option PwmConfig} {cb : Option Callback} (live : s.host.halted = false)
  (out : s.host.inService = false)
  (after : ∀ resp, afterTxn P a resp s.host = .ok { s.host with cfg := c, handler := cb })
include live out after

/-- A write of main's operation with others to follow, which may store a record (R170, R205). -/
theorem write_leads_of_more {y : PendingTxn} {rest : List PendingTxn} (phase : s.host.phase = .txns (y :: rest))
    (holds : ∀ b, (g ≠ .tmrCsr → s.hw.TimerIdle → (clk s.hw b).TimerIdle) →
      Q { s.writeCycle b with host := { s.host with cfg := c, handler := cb } }) :
    (HostMove.present { word := memWrite g n, after := a } s).Leads P Q := by
  obtain ⟨b, presented, timer⟩ := present_memWrite_cycle g n s
  exact present_leads live presented rfl (after _) (endCycle_txns_cons P live out phase) (holds b timer)

/-- The last write of main's operation, which is complete at the end of the cycle (log 18). -/
theorem write_leads_of_last (phase : s.host.phase = .txns [])
    (holds : ∀ b, present (memWrite g n) s = .next (s.writeCycle b) →
      (g ≠ .tmrCsr → s.hw.TimerIdle → (clk s.hw b).TimerIdle) →
      Q { s.writeCycle b with host := completeOp P { s.host with cfg := c, handler := cb } }) :
    (HostMove.present { word := memWrite g n, after := a } s).Leads P Q := by
  obtain ⟨b, presented, timer⟩ := present_memWrite_cycle g n s
  exact present_leads live presented rfl (after _) (endCycle_txns_nil P live out phase) (holds b presented timer)

end Write

/-- A cycle in which main holds back its next transaction ends as it began, but for the edge (R122). -/
theorem idle_txns_leads {x : PendingTxn} {queue : List PendingTxn} (live : s.host.halted = false)
    (out : s.host.inService = false) (phase : s.host.phase = .txns (x :: queue)) (holds : Q s.idleCycle) :
    (HostMove.idle s).Leads P Q := by
  refine ⟨_, rfl, ?_⟩
  rw [hostIdleCycle, endCycle_txns_cons P live out phase]
  exact holds

/-- The state in which main presents a transaction: its gap has passed, and this much is left of its queue (log 7). -/
def State.presenting (s : State) (queue : List PendingTxn) (draws : Nat) : State :=
  { s with host := { s.host with phase := .txns queue, mainGap := none }, draws := draws }

/-- The state after a cycle of the gap before main's next transaction (log 7). -/
def State.gapCycle (s : State) (gap : Option Nat) (draws : Nat) : State :=
  { s with hw := idleClk s.hw, resp := none, host := { s.host with mainGap := gap }, draws := draws }

/-- Main's next transaction is presented, or its gap takes the cycle (R8, R90). -/
theorem mainTxn_leads {x : PendingTxn} {queue : List PendingTxn} (live : s.host.halted = false)
    (out : s.host.inService = false) (phase : s.host.phase = .txns (x :: queue))
    (waits : ∀ gap draws, Q (s.gapCycle gap draws))
    (presents : ∀ draws, (HostMove.present x (s.presenting queue draws)).Leads P Q) :
    (mainTxn P x queue s).Leads P Q := by
  unfold mainTxn
  dsimp only
  split
  · exact presents _
  · exact idle_txns_leads live out phase (waits _ _)

end Leads

/-! ### The source's boot list (R263) -/

/-- Nothing is presented from outside, and no error has stopped the host. -/
structure State.Running (s : State) : Prop where
  noInput : s.inputs = []
  live : s.host.halted = false
  noError : s.host.error = none

/-- The cycle of a gap stays in its stage. -/
theorem BootStage.gapCycle {P : Params} {pin : Nat} {s : State} (stage : BootStage P pin s) (gap : Option Nat)
    (draws : Nat) : BootStage P pin (s.gapCycle gap draws) := by
  have idles : ∀ {h : Pwmt}, h.TimerIdle → (idleClk h).TimerIdle := clk_timerIdle rfl
  rcases stage with stage | stage | stage | stage
  · exact .inl { stage with timer := idles stage.timer }
  · exact .inr (.inl { stage with timer := idles stage.timer })
  · exact .inr (.inr (.inl { stage with timer := idles stage.timer }))
  · exact .inr (.inr (.inr { stage with }))

section Boot
variable {P : Params} {pin holdMs idleMs : Nat} {s : State}

theorem State.Running.bootInv (running : s.Running) (stage : BootStage P pin s) : BootInv P pin s :=
  ⟨running.noInput, .inl ⟨running.live, running.noError, stage⟩⟩

theorem State.Running.gapCycle_bootInv (running : s.Running) (stage : BootStage P pin s) (gap : Option Nat)
    (draws : Nat) : BootInv P pin (s.gapCycle gap draws) :=
  State.Running.bootInv { running with } (stage.gapCycle gap draws)

/-! ### Main's moves -/

variable (P) in
/-- Main with transactions left goes on with the next one. -/
theorem mainMove_of_txns {fuel : Nat} {x : PendingTxn} {queue : List PendingTxn}
    (phase : s.host.phase = .txns (x :: queue)) : mainMove P (fuel + 1) s = mainTxn P x queue s := by
  simp only [mainMove, phase]

variable (P) in
/-- A wait that is over is complete within the cycle (log 8). -/
theorem mainMove_of_waited {fuel : Nat} (phase : s.host.phase = .waiting 0) :
    mainMove P (fuel + 1) s = mainMove P fuel { s with host := completeOp P s.host } := by
  simp only [mainMove, phase]

section Begins
variable {fuel : Nat} {op : HostOp} (ready : s.host.phase = .ready) (item : P.program[s.host.hpc]? = some op)
include ready item

theorem mainMove_of_start {p : Phase} (begun : beginOp P op s.host = .start p) :
    mainMove P (fuel + 1) s = mainMove P fuel { s with host := { s.host with phase := p } } := by
  simp only [mainMove, ready, item, begun]

theorem mainMove_of_done {h : HostState} (begun : beginOp P op s.host = .done h) :
    mainMove P (fuel + 1) s = mainMove P fuel { s with host := completeOp P h } := by
  simp only [mainMove, ready, item, begun]

theorem mainMove_of_fatal {e : HostError} (begun : beginOp P op s.host = .fatal e) :
    mainMove P (fuel + 1) s = .idle { s with host := s.host.raiseFatal e } := by
  simp only [mainMove, ready, item, begun]

end Begins

/-- Every item of the boot list before the idle loop is followed by the next one (R124 a, R263). -/
theorem completeOp_boot {h : HostState} (program : P.program = Config.bootList pin holdMs idleMs) (item : h.hpc < 10) :
    completeOp P h = { h with hpc := h.hpc + 1, phase := .ready } := by
  obtain ⟨completes, next | ⟨-, ms, loop⟩⟩ := completeOp_eq P h
  · rw [completes, next]
  · rw [program] at loop
    have last : ∀ i < 10, (Config.bootList pin holdMs idleMs)[i]? ≠ some (.idleLoop ms) := by
      intro i below
      interval_cases i <;> simp [Config.bootList]
    exact absurd loop (last _ item)

/-! ### Items 0 and 1 (R170, R263) -/

/-- What `configure` may still have to present: writes before the last one, or the last one. -/
theorem suffix_configureTxns {x : PendingTxn} {queue : List PendingTxn} (suffix : x :: queue <:+ configureTxns P pin) :
    (∃ g n y rest, g ≠ Reg.tmrCsr ∧ x = plainTxn (memWrite g n) ∧ queue = y :: rest) ∨
      x = { word := memWrite .pwmCsr 1, after := .storeConfig (configOf P pin) } ∧ queue = [] := by
  simp only [configureTxns, List.suffix_cons_iff, List.suffix_nil, List.cons.injEq, List.cons_ne_nil,
    or_false] at suffix
  obtain ⟨first, rest⟩ | ⟨first, rest⟩ | last := suffix
  · exact .inl ⟨_, _, _, _, by decide, first, rest⟩
  · exact .inl ⟨_, _, _, _, by decide, first, rest⟩
  · exact .inr last

/-- A cycle of the writes of `configure`; the last of them stores the configuration (R170, R173). -/
theorem Configuring.writes {x : PendingTxn} {queue : List PendingTxn} (stage : Configuring P pin s)
    (running : s.Running) (program : P.program = Config.bootList pin holdMs idleMs)
    (phase : s.host.phase = .txns (x :: queue)) : (mainTxn P x queue s).Leads P (BootInv P pin) := by
  obtain ⟨-, ready⟩ | ⟨item, fits, q, txns, -, suffix⟩ := stage.work
  · cases ready.symm.trans phase
  obtain rfl : q = x :: queue := by simpa using txns.symm.trans phase
  obtain ⟨-, servo, handler⟩ := stage.unset
  obtain ⟨out, -⟩ := stage.service
  refine mainTxn_leads running.live out phase (running.gapCycle_bootInv (.inl stage)) fun draws => ?_
  obtain ⟨g, n, y, rest, other, rfl, rfl⟩ | ⟨rfl, rfl⟩ := suffix_configureTxns suffix
  · refine write_leads_of_more running.live out (fun _ => rfl) rfl fun b timer => ?_
    have left := (List.suffix_cons _ _).trans suffix
    exact State.Running.bootInv { running with } (.inl { stage with
      work := .inr ⟨item, fits, _, rfl, List.cons_ne_nil y rest, left⟩, timer := timer other stage.timer })
  · refine write_leads_of_last running.live out (fun _ => rfl) rfl fun b _ timer => ?_
    rw [completeOp_boot program (by simp [State.presenting, item])]
    have pulse : demoPulse (s.host.hpc + 1) = some Config.pulseMax := by rw [item]; rfl
    exact State.Running.bootInv { running with } (.inr (.inl { stage with
      set_up := ⟨rfl, servo, handler⟩
      fits := fits
      work := .inl ⟨_, pulse, .inl rfl⟩
      timer := timer (by decide) stage.timer }))

/-- A `ConfigurationError` stops the host before any transaction (R226, R232). -/
theorem State.Running.stops_leads (running : s.Running) {e : HostError} (kind : e.kind = .configurationError) :
    (HostMove.idle { s with host := s.host.raiseFatal e }).Leads P (BootInv P pin) := by
  refine ⟨_, rfl, running.noInput, .inr ?_⟩
  rw [hostIdleCycle, endCycle_halted P rfl]
  exact ⟨rfl, e, by simp [running.noError], kind⟩

/-- `configure` begins: it is stopped by one of its checks, or goes on to its writes (R170, R172). -/
theorem Configuring.begins {fuel : Nat} (stage : Configuring P pin s) (running : s.Running)
    (program : P.program = Config.bootList pin holdMs idleMs) (item : s.host.hpc = 1) (ready : s.host.phase = .ready) :
    (mainMove P (fuel + 2) s).Leads P (BootInv P pin) := by
  have op : P.program[s.host.hpc]? = some (.configure pin 50) := by rw [program, item]; rfl
  obtain ⟨unset, -⟩ := stage.unset
  obtain ⟨stored, -⟩ | ⟨-, other, -⟩ | ⟨-, -, -, begun⟩ | ⟨-, -, -, -, begun⟩ | ⟨-, -, -, low, high, begun⟩ :=
    configureOp_cases P pin 50 s.host
  · simp [unset] at stored
  · exact absurd rfl other
  · rw [mainMove_of_fatal ready op begun]
    exact running.stops_leads rfl
  · rw [mainMove_of_fatal ready op begun]
    exact running.stops_leads rfl
  · rw [mainMove_of_start ready op begun, mainMove_of_txns P rfl]
    exact Configuring.writes { stage with
      work := .inr ⟨item, ⟨low, high⟩, _, rfl, List.cons_ne_nil _ _, List.suffix_rfl⟩ } { running with } program rfl

/-- A cycle of items 0 and 1; the first of them takes none (R4, R263; log 8). -/
theorem Configuring.leads {fuel : Nat} (stage : Configuring P pin s) (running : s.Running)
    (program : P.program = Config.bootList pin holdMs idleMs) : (mainMove P (fuel + 3) s).Leads P (BootInv P pin) := by
  obtain ⟨first | second, ready⟩ | ⟨-, -, q, txns, nonempty, -⟩ := stage.work
  · have op : P.program[s.host.hpc]? = some .stdioInit := by rw [program, first]; rfl
    rw [mainMove_of_done ready op rfl, completeOp_boot program (by omega)]
    have next : s.host.hpc + 1 = 1 := by rw [first]
    exact Configuring.begins { stage with work := .inl ⟨.inr next, rfl⟩ } { running with } program next rfl
  · exact stage.begins running program second ready
  · obtain ⟨x, queue, rfl⟩ := List.exists_cons_of_ne_nil nonempty
    rw [mainMove_of_txns P txns]
    exact stage.writes running program txns

/-! ### Items 2 to 7 (R263) -/

/-- The items that set a pulse, and the program's operation there. -/
theorem demoPulse_eq_some {n : Nat} {p : Int} (pulse : demoPulse n = some p) :
    (n = 2 ∨ n = 4 ∨ n = 6) ∧ (Config.bootList pin holdMs idleMs)[n]? = some (.setPulse p) := by
  unfold demoPulse at pulse
  split at pulse <;> cases pulse <;> exact ⟨by omega, rfl⟩

/-- How far the item `n` is that sets the pulse `p`: its write is queued, or its level is in `CC` (R174, R175). -/
def PulseProgress (P : Params) (pin : Nat) (p : Int) (n : Nat) (t : State) : Prop :=
  t.host.hpc = n ∧ t.host.phase = .txns [plainTxn (setPulseWord (configOf P pin) p)] ∨
    t.host.hpc = n + 1 ∧ t.host.phase = .ready ∧ t.hw.cc.toNat = levelOf p (periodCountsOf P)

/-- The write of a pulse leaves its level in `CC` (R110, R174). -/
theorem clk_cc_of_setPulse {p : Int} {b : BusWrite} (fits : wrapOf P ≤ 65535)
    (presented : present (setPulseWord (configOf P pin) p) s = .next (s.writeCycle b)) :
    (clk s.hw b).cc.toNat = levelOf p (periodCountsOf P) := by
  have level := levelOf_le p (periodCountsOf P)
  have counts : wrapOf P = periodCountsOf P - 1 := rfl
  obtain ⟨t, written, cc, -⟩ := present_write_level (n := levelOf p (periodCountsOf P)) s (by omega)
  cases presented.symm.trans written
  exact cc

/-- A cycle of the write of a demo pulse (R174, R263). -/
theorem Demonstrating.writes {p : Int} (stage : Demonstrating P pin s) (running : s.Running)
    (program : P.program = Config.bootList pin holdMs idleMs) (pulse : demoPulse s.host.hpc = some p)
    (phase : s.host.phase = .txns [plainTxn (setPulseWord (configOf P pin) p)]) :
    (mainTxn P (plainTxn (setPulseWord (configOf P pin) p)) [] s).Leads P fun t =>
      BootInv P pin t ∧ PulseProgress P pin p s.host.hpc t := by
  obtain ⟨items, -⟩ := demoPulse_eq_some (pin := pin) (holdMs := holdMs) (idleMs := idleMs) pulse
  obtain ⟨out, -⟩ := stage.service
  refine mainTxn_leads running.live out phase (fun gap draws => ?_) fun draws => ?_
  · exact ⟨running.gapCycle_bootInv (.inr (.inl stage)) gap draws, .inl ⟨rfl, phase⟩⟩
  · refine write_leads_of_last running.live out (fun _ => rfl) rfl fun b presented timer => ?_
    rw [completeOp_boot program (by simp only [State.presenting]; omega)]
    refine ⟨State.Running.bootInv { running with } (.inr (.inl { stage with
      work := .inr ⟨?_, .inl rfl⟩, timer := timer (by decide) stage.timer })),
      .inr ⟨rfl, rfl, clk_cc_of_setPulse stage.fits.2 presented⟩⟩
    simp only [State.presenting]
    omega

/-- A cycle that begins at a demo pulse (R263). -/
theorem Demonstrating.leads_of_pulse {fuel : Nat} {p : Int} (stage : Demonstrating P pin s) (running : s.Running)
    (program : P.program = Config.bootList pin holdMs idleMs) (pulse : demoPulse s.host.hpc = some p) :
    (mainMove P (fuel + 2) s).Leads P fun t => BootInv P pin t ∧ PulseProgress P pin p s.host.hpc t := by
  obtain ⟨items, op⟩ := demoPulse_eq_some (pin := pin) (holdMs := holdMs) (idleMs := idleMs) pulse
  obtain ⟨p', pulse', ready | txns⟩ | ⟨hold, -⟩ := stage.work
  · obtain ⟨stored, -⟩ := stage.set_up
    have begun : beginOp P (.setPulse p) s.host = .start (.txns [plainTxn (setPulseWord (configOf P pin) p)]) := by
      simp only [beginOp, setPulseOp, stored]
    rw [mainMove_of_start ready (program ▸ op) begun, mainMove_of_txns P rfl]
    exact Demonstrating.writes { stage with work := .inl ⟨p, pulse, .inr rfl⟩ } { running with } program pulse rfl
  · cases pulse.symm.trans pulse'
    rw [mainMove_of_txns P txns]
    exact stage.writes running program pulse txns
  · omega

/-! ### Items 8 and 9 (R191, R205, R264) -/

/-- Where the wrap fits its register, 10 ms fit the match register (R171, R172, R207). -/
theorem cyclesOfMs_stepDelay (wf : P.wf = true) (clock : 100 ≤ P.fSys) (fits : wrapOf P ≤ 65535) :
    1 ≤ cyclesOfMs P Config.stepDelay ∧ cyclesOfMs P Config.stepDelay ≤ 2 ^ 32 := by
  obtain ⟨divLow, divHigh⟩ := divider_bounds wf
  have counts : wrapOf P = (16 * P.fSys / (50 * P.pwmDiv16) : Nat) - 1 := rfl
  have bound : 16 * P.fSys < 65537 * (50 * P.pwmDiv16) := Nat.lt_mul_of_div_lt (by omega) (by omega)
  have cycles : cyclesOfMs P Config.stepDelay = 10 * P.fSys / 1000 := rfl
  omega

/-- What `arm` may still have to write: the match value, the clear of stale flags, the enable (R205). -/
theorem suffix_armTxns {n : Nat} {cb : Callback} {x : PendingTxn} {queue : List PendingTxn}
    (suffix : x :: queue <:+ armTxns n cb) :
    (x = plainTxn (memWrite .tmrMatch (n - 1)) ∧
        queue = [{ word := memWrite .tmrIntr 3, after := .storeHandler cb }, plainTxn (memWrite .tmrCsr 3)]) ∨
      (x = { word := memWrite .tmrIntr 3, after := .storeHandler cb } ∧ queue = [plainTxn (memWrite .tmrCsr 3)]) ∨
      x = plainTxn (memWrite .tmrCsr 3) ∧ queue = [] := by
  simpa only [armTxns, List.suffix_cons_iff, List.suffix_nil, List.cons.injEq, List.cons_ne_nil, or_false] using suffix

/-- The read of `arm` finds the timer free and its period representable (R206, R207). -/
theorem Arming.reads {draws : Nat} (wf : P.wf = true) (clock : 100 ≤ P.fSys) (stage : Arming P pin s)
    (running : s.Running) :
    (HostMove.present { word := memRead .tmrCsr, after := .armChecks Config.stepDelay .tick }
      (s.presenting [] draws)).Leads P (BootInv P pin) := by
  obtain ⟨low, high⟩ := cyclesOfMs_stepDelay wf clock stage.fits.2
  obtain ⟨disabled, -⟩ := stage.timer
  obtain ⟨out, -⟩ := stage.service
  have free : timerTaken (some { rdata := s.hw.readReg .tmrCsr, err := false }) = false := by
    rw [timerTaken_eq_decide, readReg_tmrCsr_toNat, disabled]
    simp
  have presented := (present_memRead .tmrCsr (s.presenting [] draws)).trans (exec_read _ _)
  obtain ⟨taken, -⟩ | ⟨-, outside, -⟩ | ⟨-, -, -, armed⟩ := armChecks_cases P Config.stepDelay .tick
    (some { rdata := s.hw.readReg .tmrCsr, err := false }) (s.presenting [] draws).host
  · simp [free] at taken
  · omega
  · refine present_leads running.live presented rfl armed (endCycle_txns_cons P running.live out rfl) ?_
    refine State.Running.bootInv { running with } (.inr (.inr (.inl { stage with
      work := .inr ⟨_, rfl, List.cons_ne_nil _ _, List.suffix_rfl, by simp [armTxns]⟩
      timer := clk_timerIdle rfl stage.timer })))

/-- A cycle of the writes of `arm`; the callback is stored with the second of them, and the last one enables the timer
(R205, R264). -/
theorem Arming.writes {x : PendingTxn} {queue : List PendingTxn} (stage : Arming P pin s) (running : s.Running)
    (program : P.program = Config.bootList pin holdMs idleMs) (draws : Nat)
    (suffix : x :: queue <:+ armTxns (cyclesOfMs P Config.stepDelay) .tick)
    (stored : x :: queue = [plainTxn (memWrite .tmrCsr 3)] → s.host.handler = some .tick) :
    (HostMove.present x (s.presenting queue draws)).Leads P (BootInv P pin) := by
  obtain ⟨out, -⟩ := stage.service
  have rest : queue <:+ armTxns (cyclesOfMs P Config.stepDelay) .tick := (List.suffix_cons _ _).trans suffix
  obtain ⟨rfl, rfl⟩ | ⟨rfl, rfl⟩ | ⟨rfl, rfl⟩ := suffix_armTxns suffix
  · refine write_leads_of_more running.live out (fun _ => rfl) rfl fun b timer => ?_
    exact State.Running.bootInv { running with } (.inr (.inr (.inl { stage with
      work := .inr ⟨_, rfl, List.cons_ne_nil _ _, rest, by simp⟩, timer := timer (by decide) stage.timer })))
  · refine write_leads_of_more running.live out (fun _ => rfl) rfl fun b timer => ?_
    exact State.Running.bootInv { running with } (.inr (.inr (.inl { stage with
      work := .inr ⟨_, rfl, List.cons_ne_nil _ _, rest, fun _ => rfl⟩, timer := timer (by decide) stage.timer })))
  · obtain ⟨cfg, servo⟩ := stage.set_up
    have item := stage.at_item
    obtain ⟨-, nothing⟩ := stage.service
    refine write_leads_of_last running.live out (fun _ => rfl) rfl fun b _ _ => ?_
    rw [completeOp_boot program (by simp [State.presenting, item])]
    refine State.Running.bootInv { running with } (.inr (.inr (.inr
      { set_up := ⟨cfg, ⟨_, servo, Servo.initial_inBounds⟩, stored rfl⟩
        at_item := congrArg (· + 1) item
        work := .inl rfl
        service := by simp [State.presenting, nothing] })))

/-- A cycle of `arm` (R205). -/
theorem Arming.leads {fuel : Nat} (wf : P.wf = true) (clock : 100 ≤ P.fSys) (stage : Arming P pin s)
    (running : s.Running) (program : P.program = Config.bootList pin holdMs idleMs) :
    (mainMove P (fuel + 1) s).Leads P (BootInv P pin) := by
  obtain ⟨out, -⟩ := stage.service
  have waits := running.gapCycle_bootInv (.inr (.inr (.inl stage)))
  obtain reads | ⟨q, writes, nonempty, suffix, stored⟩ := stage.work
  · rw [mainMove_of_txns P reads]
    exact mainTxn_leads running.live out reads waits fun _ => stage.reads wf clock running
  · obtain ⟨x, queue, rfl⟩ := List.exists_cons_of_ne_nil nonempty
    rw [mainMove_of_txns P writes]
    exact mainTxn_leads running.live out writes waits fun draws => stage.writes running program draws suffix stored

/-! ### The holds of the demo (R212, R263) -/

/-- A cycle that begins with a hold over: the next demo pulse begins in it, or after the last hold `arm` does, past the
initialisation of Servo State (R191, R263; log 8). -/
theorem Demonstrating.leads_of_waited {fuel : Nat} (wf : P.wf = true) (clock : 100 ≤ P.fSys)
    (stage : Demonstrating P pin s) (running : s.Running) (program : P.program = Config.bootList pin holdMs idleMs)
    (hold : s.host.hpc = 3 ∨ s.host.hpc = 5 ∨ s.host.hpc = 7) (waited : s.host.phase = .waiting 0) :
    (mainMove P (fuel + 4) s).Leads P (BootInv P pin) := by
  obtain ⟨cfg, -, -⟩ := stage.set_up
  have pulseNext {p : Int} (pulse : demoPulse (s.host.hpc + 1) = some p) :
      (mainMove P (fuel + 4) s).Leads P (BootInv P pin) := by
    rw [mainMove_of_waited P waited, completeOp_boot program (by omega)]
    have next : Demonstrating P pin { s with host := { s.host with hpc := s.host.hpc + 1, phase := .ready } } :=
      { stage with work := .inl ⟨p, pulse, .inl rfl⟩ }
    exact (next.leads_of_pulse { running with } program pulse).mono fun _ holds => holds.1
  obtain item | item | item := hold
  · exact pulseNext (p := Config.pulseMid) (by rw [item]; rfl)
  · exact pulseNext (p := Config.pulseMin) (by rw [item]; rfl)
  · rw [mainMove_of_waited P waited, completeOp_boot program (by omega),
      mainMove_of_done rfl (op := .initServo) (by simp only [program, item]; rfl) rfl,
      completeOp_boot program (by simp only [item]; omega),
      mainMove_of_start rfl (op := .arm Config.stepDelay .tick) (by simp only [program, item]; rfl) rfl]
    exact Arming.leads wf clock
      { stage with set_up := ⟨cfg, rfl⟩, at_item := congrArg (· + 2) item, work := .inl rfl } { running with } program

/-- A cycle of a hold, which counts down or is over (R212; log 10). -/
theorem Demonstrating.leads_of_hold {fuel : Nat} (wf : P.wf = true) (clock : 100 ≤ P.fSys)
    (stage : Demonstrating P pin s) (running : s.Running) (program : P.program = Config.bootList pin holdMs idleMs)
    (hold : s.host.hpc = 3 ∨ s.host.hpc = 5 ∨ s.host.hpc = 7) {n : Nat} (waits : s.host.phase = .waiting n) :
    (mainMove P (fuel + 4) s).Leads P (BootInv P pin) := by
  cases n with
  | zero => exact stage.leads_of_waited wf clock running program hold waits
  | succ n =>
    obtain ⟨out, -⟩ := stage.service
    have ended : s.host.endCycle P = { s.host with phase := .waiting n } := by
      rw [endCycle_of_open P running.live (by simp [waits]), waits]
      exact passIsr_of_out out
    rw [mainMove_of_waiting P waits]
    refine ⟨_, rfl, ?_⟩
    rw [hostIdleCycle, ended]
    exact State.Running.bootInv { running with } (.inr (.inl { stage with
      work := .inr ⟨hold, .inr ⟨n, rfl⟩⟩, timer := clk_timerIdle rfl stage.timer }))

/-- A cycle of the demo, which at a pulse also makes progress with it (R263). -/
theorem Demonstrating.leads {fuel : Nat} (wf : P.wf = true) (clock : 100 ≤ P.fSys) (stage : Demonstrating P pin s)
    (running : s.Running) (program : P.program = Config.bootList pin holdMs idleMs) :
    (mainMove P (fuel + 5) s).Leads P fun t =>
      BootInv P pin t ∧ ∀ p, demoPulse s.host.hpc = some p → PulseProgress P pin p s.host.hpc t := by
  obtain ⟨p, pulse, -⟩ | ⟨hold, begins⟩ := stage.work
  · refine (stage.leads_of_pulse running program pulse).mono fun t ⟨inv, progress⟩ => ⟨inv, fun p' pulse' => ?_⟩
    cases pulse.symm.trans pulse'
    exact progress
  · have noPulse : demoPulse s.host.hpc = none := by rcases hold with item | item | item <;> rw [item] <;> rfl
    refine HostMove.Leads.mono ?_ fun t inv => ⟨inv, fun p pulse => by simp [noPulse] at pulse⟩
    obtain ready | ⟨n, waits⟩ := begins
    · have op : P.program[s.host.hpc]? = some (.wait holdMs) := by
        rcases hold with item | item | item <;> rw [program, item] <;> rfl
      rw [mainMove_of_start ready op rfl]
      exact Demonstrating.leads_of_hold wf clock { stage with work := .inr ⟨hold, .inr ⟨_, rfl⟩⟩ } { running with }
        program hold rfl
    · exact stage.leads_of_hold wf clock running program hold waits

/-! ### Item 10 (R208, R213) -/

/-- The end of a cycle leaves main in its idle loop and queues nothing for the handler (R213, R236). -/
theorem Sweeping.endCycle_bootInv (stage : Sweeping P pin s) (running : s.Running) :
    BootInv P pin { s with host := s.host.endCycle P } := by
  obtain ⟨cfg, servo, handler, halted, error⟩ := endCycle_records P s.host
  have idling : s.host.phase.Idling := stage.work
  have main : (s.host.endCycle P).hpc = s.host.hpc ∧ (s.host.endCycle P).phase.Idling := by
    rw [endCycle_of_open P running.live idling.ne_txns]
    rcases passIsr_cases { s.host with phase := s.host.phase.pass } with ⟨-, ends⟩ | ⟨-, -, -, ends⟩ | ⟨-, -, ends⟩ <;>
      rw [ends] <;> exact ⟨rfl, idling.pass⟩
  have queue : ∀ t ∈ (s.host.endCycle P).isrQueue, t ∈ s.host.isrQueue := by
    rcases endCycle_isr P running.live with ⟨-, -, same⟩ | ⟨-, -, -, nothing⟩ | ⟨-, -, same, -⟩
    · simp [same]
    · simp [nothing]
    · simp [same]
  refine State.Running.bootInv ⟨running.noInput, halted.trans running.live, error.trans running.noError⟩
    (.inr (.inr (.inr ⟨?_, main.1.trans stage.at_item, main.2, fun t mem => stage.service t (queue t mem)⟩)))
  simp only [cfg, servo, handler]
  exact stage.set_up

/-- A cycle in which neither context presents anything. -/
theorem Sweeping.idle_leads (stage : Sweeping P pin s) (running : s.Running) :
    (HostMove.idle s).Leads P (BootInv P pin) :=
  ⟨_, rfl, Sweeping.endCycle_bootInv (s := s.idleCycle) { stage with } { running with }⟩

/-- Main idles (R213). -/
theorem Sweeping.main_leads {fuel : Nat} (stage : Sweeping P pin s) (running : s.Running)
    (program : P.program = Config.bootList pin holdMs idleMs) : (mainMove P fuel s).Leads P (BootInv P pin) := by
  have loop : P.program[s.host.hpc]? = some (.idleLoop idleMs) := by rw [program, stage.at_item]; rfl
  obtain ⟨p, idles, move⟩ := mainMove_idleLoop fuel loop stage.work
  rw [move]
  exact Sweeping.idle_leads { stage with work := idles } { running with }

/-- The handler in service writes a level, or presents nothing (R208). -/
theorem Sweeping.service_leads (stage : Sweeping P pin s) (running : s.Running) (service : s.host.inService = true) :
    (hostMove P s).Leads P (BootInv P pin) := by
  obtain ⟨gap, draws, move⟩ | ⟨x, queue, draws, -, queued, move⟩ := hostMove_inService_cases P service
  · rw [move]
    exact Sweeping.idle_leads { stage with } { running with }
  · have levels := stage.service
    rw [queued] at levels
    obtain ⟨⟨p, rfl⟩, left⟩ := List.forall_mem_cons.mp levels
    obtain ⟨b, presented, -⟩ := present_memWrite_cycle .pwmCc (levelOf p (periodCountsOf P))
      { s with host := { s.host with isrQueue := queue, isrGap := none }, draws := draws }
    rw [move]
    refine present_leads running.live presented rfl rfl rfl ?_
    exact Sweeping.endCycle_bootInv (s := { s.writeCycle b with
      host := { s.host with isrQueue := queue, isrGap := none }, draws := draws })
      { stage with service := left } { running with }

/-- The handler starts, and `tick` queues its level (R190, R208). -/
theorem Sweeping.start_leads (stage : Sweeping P pin s) (running : s.Running) :
    (startIsr P s).Leads P (BootInv P pin) := by
  obtain ⟨cfg, ⟨sv, servo, bounds⟩, handler⟩ := stage.set_up
  obtain ⟨b, presented, -⟩ := present_memWrite_cycle .tmrIntr 1
    { s with host := s.host.enterIsr (P.tCb s.draws), draws := s.draws + 1 }
  rw [startIsr_of_set P handler servo]
  refine present_leads running.live presented rfl (isrBody_of_tick handler servo cfg) rfl ?_
  exact Sweeping.endCycle_bootInv (s := { s.writeCycle b with
      host := { s.host.enterIsr (P.tCb s.draws) with
        servo := some sv.tick, isrQueue := [plainTxn (setPulseWord (configOf P pin) sv.tick.targetPulse)] }
      draws := s.draws + 1 })
    { stage with
      set_up := ⟨cfg, ⟨_, rfl, Servo.tick_inBounds bounds⟩, handler⟩
      service := fun _ mem => ⟨_, List.mem_singleton.mp mem⟩ }
    { running with }

/-- A cycle of item 10: the handler in service, its start, or main in its idle loop (R208, R213). -/
theorem Sweeping.leads (stage : Sweeping P pin s) (running : s.Running)
    (program : P.program = Config.bootList pin holdMs idleMs) : (hostMove P s).Leads P (BootInv P pin) := by
  cases service : s.host.inService with
  | true => exact stage.service_leads running service
  | false =>
    cases irq : s.hw.irq with
    | false =>
      rw [hostMove_of_no_request P running.live service irq]
      exact Sweeping.main_leads { stage with } { running with } program
    | true =>
      rw [hostMove_of_request P running.live service irq]
      obtain ⟨draws, ⟨due, -⟩ | ⟨gap, -, waits⟩⟩ := requestMove_cases P s
      · rw [due]
        exact Sweeping.start_leads { stage with } { running with }
      · rw [waits]
        exact Sweeping.main_leads { stage with } { running with } program

/-! ### The whole program -/

/-- Before the timer runs nothing is requested, and main moves (R35, R264). -/
theorem hostMove_of_timerIdle (live : s.host.halted = false) (timer : s.hw.TimerIdle) (service : s.host.NoService)
    (program : P.program = Config.bootList pin holdMs idleMs) :
    hostMove P s = mainMove P 24 { s with host := { s.host with irqGap := none } } := by
  obtain ⟨-, ip⟩ := timer
  obtain ⟨out, -⟩ := service
  have fuel : mainFuel P = 24 := by rw [mainFuel, program]; rfl
  rw [hostMove_of_no_request P live out (by rw [Pwmt.irq, ip]; rfl), fuel]

/-- A stage leads to a stage again, or to a host that `ConfigurationError` has stopped; a demo pulse makes progress. -/
theorem BootStage.leads (wf : P.wf = true) (clock : 100 ≤ P.fSys) (stage : BootStage P pin s) (running : s.Running)
    (program : P.program = Config.bootList pin holdMs idleMs) :
    (hostMove P s).Leads P fun t =>
      BootInv P pin t ∧ ∀ p, demoPulse s.host.hpc = some p → PulseProgress P pin p s.host.hpc t := by
  have noPulse (none : demoPulse s.host.hpc = none) (leads : (hostMove P s).Leads P (BootInv P pin)) :
      (hostMove P s).Leads P fun t =>
        BootInv P pin t ∧ ∀ p, demoPulse s.host.hpc = some p → PulseProgress P pin p s.host.hpc t :=
    leads.mono fun t inv => ⟨inv, fun p pulse => by simp [none] at pulse⟩
  rcases stage with stage | stage | stage | stage
  · have item : s.host.hpc = 0 ∨ s.host.hpc = 1 := by
      obtain ⟨item, -⟩ | ⟨item, -⟩ := stage.work
      · exact item
      · exact .inr item
    refine noPulse (by rcases item with item | item <;> rw [item] <;> rfl) ?_
    rw [hostMove_of_timerIdle running.live stage.timer stage.service program]
    exact Configuring.leads { stage with } { running with } program
  · rw [hostMove_of_timerIdle running.live stage.timer stage.service program]
    exact Demonstrating.leads wf clock { stage with } { running with } program
  · refine noPulse (by rw [stage.at_item]; rfl) ?_
    rw [hostMove_of_timerIdle running.live stage.timer stage.service program]
    exact Arming.leads wf clock { stage with } { running with } program
  · exact noPulse (by rw [stage.at_item]; rfl) (stage.leads running program)

end Boot

/-- Settles O59: no outside drives the cycle; a stopped host stays stopped, and a stage leads on as `BootStage.leads`
says. -/
theorem bootProgramNeverGoesWrong : Obligations.BootProgramNeverGoesWrong := by
  intro P pin holdMs idleMs s wf program clock ⟨noInput, runs⟩
  have edge : stepWith P s = (hostMove P s).outcome P := by
    rw [← hostCycle_eq_outcome]
    simp only [stepWith, noInput]
  rw [edge]
  obtain ⟨live, noError, stage⟩ | ⟨halted, stopped⟩ := runs
  · obtain ⟨t, next, inv, progress⟩ := stage.leads wf clock ⟨noInput, live, noError⟩ program
    exact ⟨t, next, inv, fun p _ => progress p⟩
  · rw [hostMove_of_halted P halted]
    refine ⟨_, rfl, ⟨noInput, .inr ?_⟩, fun p live => by simp [halted] at live⟩
    rw [hostIdleCycle, endCycle_halted P halted]
    exact ⟨halted, stopped⟩

end Sys2Proof.Machine
